-- ==== Sys2Proof/Word.lean ====
section
/-! DEFINITION. The byte and the field widths as types (00_scope.md R7, R11). -/

namespace Sys2Proof

/-- A byte holds 8 bits (R11). -/
abbrev Byte := BitVec 8

/-- A byte sequence; index 0 is the first byte (R12). -/
abbrev Bytes := List Byte

end Sys2Proof
end

