-- ==== Sys2Proof/Config.lean ====
section
/-! DEFINITION. What an implementation fixes: the two parameters of 00_scope.md R8 and R9, and the
one free value, the contents of a buffer that has just been allocated. -/

namespace Sys2Proof

/-- The parameters the model takes as arguments (R8, R9). State carries them as plain data that no
step changes, so a statement about every state is a statement about every value of them
(DESIGN CHOICE: log entry 3). -/
structure Config where
  /-- MAX_PAYLOAD (R8): `none` is "unbounded". -/
  maxPayload : Option Nat
  /-- LATENCY (R9): not observable, and no rule depends on it (R112). -/
  latency : Nat
deriving DecidableEq, Repr

namespace Config

/-- The default and reference value of MAX_PAYLOAD is unbounded (R8).
The spec gives LATENCY no value: 0 is a DESIGN CHOICE (log entry 4). -/
def reference : Config := { maxPayload := none, latency := 0 }

/-- FREE VALUE: the byte at each offset of "a new buffer" (40_encoder.md R66) before ENCODE has
written it (log entry 9). -/
opaque freshByte : Nat → Byte

end Config

end Sys2Proof
end

