-- ==== Sys2Proof/Syntax.lean ====
section
/-! DEFINITION. The operations of the block, one constructor per row of spec/opcode_table.json, and
the request record REQ they are presented as (30_encoding.md R53, R55). -/

namespace Sys2Proof

/-- A request that names an operation, with that operation's operand record (R53). -/
inductive Instr where
  /-- ENCODE: four natural numbers, unbounded so that OutOfRange can happen, and the payload (R66). -/
  | encode (seq ack flags win : Nat) (payload : Bytes)
  /-- DECODE_HEADER: a byte sequence of any length (R74). -/
  | decodeHeader (input : Bytes)
  /-- DECODE_FLAGS: a value that is 16 bits by type (R81, R87). -/
  | decodeFlags (flags : BitVec 16)
deriving DecidableEq, Repr

/-- REQ on the request port the three units share (R53, R55): the 2-bit selector and the operand
lines of the three units, under their port names. An operation reads only the lines of its own operand
record (DESIGN CHOICE: log entry 7). The ENCODE lines are as wide as the host's values (R53). -/
structure Req where
  op : BitVec 2
  encSeq : Nat
  encAck : Nat
  encFlags : Nat
  encWin : Nat
  encPay : Bytes
  decIn : Bytes
  fxFlags : BitVec 16
deriving DecidableEq, Repr

/-- The selector `op` with every operand line idle: zero, or no byte. -/
def Req.idle (op : BitVec 2) : Req :=
  { op := op, encSeq := 0, encAck := 0, encFlags := 0, encWin := 0, encPay := [], decIn := [],
    fxFlags := 0 }

end Sys2Proof
end

