-- ==== Sys2Proof/WellFormed.lean ====
section
/-! DEFINITION. The checks on what may be presented or chosen. An `Instr` needs none beyond its
types: every operand record of 30_encoding.md R53 is a legal request (an operand past its width is
answered OutOfRange, 40_encoder.md R70; it is not ill-formed). -/

namespace Sys2Proof

/-- MAX_PAYLOAD is unbounded, or at least 1460 (00_scope.md R8). -/
def Config.wf (c : Config) : Bool :=
  match c.maxPayload with
  | none => true
  | some n => decide (1460 ≤ n)

/-- The operands fit ports of exactly 32, 32, 16 and 16 bits (R53, R73): what a realisation with
native-width ports can be given at all. -/
def Instr.fitsNativePorts : Instr → Bool
  | .encode seq ack flags win _ =>
    decide (seq < 2 ^ 32) && decide (ack < 2 ^ 32) && decide (flags < 2 ^ 16) && decide (win < 2 ^ 16)
  | .decodeHeader _ => true
  | .decodeFlags _ => true

/-- The ENCODE lines of a request are idle. -/
def Req.encIdle (r : Req) : Bool :=
  r.encSeq == 0 && r.encAck == 0 && r.encFlags == 0 && r.encWin == 0 && r.encPay.isEmpty

/-- A request names an operation (R58) and drives only that operation's lines. -/
def Req.wf (r : Req) : Bool :=
  if r.op = 0b00#2 then r.decIn.isEmpty && r.fxFlags == 0#16
  else if r.op = 0b01#2 then r.encIdle && r.fxFlags == 0#16
  else if r.op = 0b10#2 then r.encIdle && r.decIn.isEmpty
  else false

end Sys2Proof
end

