-- ==== Sys2Proof/Decode.lean ====
section
/-! DEFINITION. The operation map of 30_encoding.md R58 read from a request, total and rejecting by
name, and the encoder written from the same table. -/

namespace Sys2Proof

/-- The three units of the block (00_scope.md R1). -/
inductive UnitName where
  | packetHeaderEncoder
  | packetHeaderDecoder
  | flagBitExtractor
deriving DecidableEq, Repr

/-- Why a request is refused: exactly the two cases of 60_exceptions.md R93. A refusal is no stop of
the machine: it sets the mark `refused` and the machine goes on (10_state.md R22, 60_exceptions.md R98). -/
inductive RefusalReason where
  /-- `op = 0b11`: no operation is named (R59). -/
  | reservedOp
  /-- ENCODE with a payload longer than a finite MAX_PAYLOAD (R69). -/
  | payloadBeyondMaxPayload
deriving DecidableEq, Repr

/-- The unit a selector value chooses (R58); 0b11 chooses none. -/
def unitOfOp (op : BitVec 2) : Option UnitName :=
  if op = 0b00#2 then some .packetHeaderEncoder
  else if op = 0b01#2 then some .packetHeaderDecoder
  else if op = 0b10#2 then some .flagBitExtractor
  else none

/-- The unit that performs an operation (R1). -/
def Instr.unit : Instr → UnitName
  | .encode _ _ _ _ _ => .packetHeaderEncoder
  | .decodeHeader _ => .packetHeaderDecoder
  | .decodeFlags _ => .flagBitExtractor

/-- "A decoder of REQ reads only `op`, and the table is total over its four values" (R58): the
selector chooses the operation, whose operands are then the lines of its own operand record (R53). -/
def decode (r : Req) : Except RefusalReason Instr :=
  if r.op = 0b00#2 then .ok (.encode r.encSeq r.encAck r.encFlags r.encWin r.encPay)
  else if r.op = 0b01#2 then .ok (.decodeHeader r.decIn)
  else if r.op = 0b10#2 then .ok (.decodeFlags r.fxFlags)
  else .error .reservedOp

/-- The selector value of an operation (R58). -/
def Instr.op : Instr → BitVec 2
  | .encode _ _ _ _ _ => 0b00#2
  | .decodeHeader _ => 0b01#2
  | .decodeFlags _ => 0b10#2

/-- The request that presents an operation: its selector, its operands on its own lines, and the
other units' lines idle. -/
def encode : Instr → Req
  | .encode seq ack flags win payload =>
    { Req.idle 0b00#2 with
      encSeq := seq, encAck := ack, encFlags := flags, encWin := win, encPay := payload }
  | .decodeHeader input => { Req.idle 0b01#2 with decIn := input }
  | .decodeFlags flags => { Req.idle 0b10#2 with fxFlags := flags }

/-- The request whose table word is `w`: the selector is bits 1:0, and the table gives the operands
no bits, so every operand line is idle. The bits that pad the selector to whole bytes are no part of
REQ (R53) and are not read (DESIGN CHOICE: log entry 7). -/
def reqOfTableWord (_nbits w : Nat) : Req := Req.idle (BitVec.ofNat 2 w)

/-- The operation the decoder reads from a word of spec/opcode_table.json. -/
def decodeTableWord (nbits w : Nat) : Option Instr :=
  match decode (reqOfTableWord nbits w) with
  | .ok i => some i
  | .error _ => none

end Sys2Proof
end

