-- ==== Sys2Proof/Machine/State.lean ====
section
/-! DEFINITION. The state of the transaction-level model (10_state.md R22) with the host's side of the
interface, as plain data, and the state right after reset (R24). -/

namespace Sys2Proof.Machine

/-- The result record of a response (30_encoding.md R54). -/
inductive Result where
  /-- ENCODE: the packet, 12 + L bytes. -/
  | packet (bytes : Bytes)
  /-- DECODE_HEADER: the four fields in their widths. -/
  | header (seq ack : BitVec 32) (flags win : BitVec 16)
  /-- DECODE_FLAGS: the booleans in the order (syn, ack, fin) (42_flag_extractor.md R86). -/
  | booleans (syn ack fin : Bool)
deriving DecidableEq, Repr

/-- RSP: a 2-bit status and the result record, `none` where the response has no result value (R54). -/
structure Response where
  status : BitVec 2
  result : Option Result
deriving DecidableEq, Repr

/-- What a unit gives one request: a response, or a refusal, which is no response (60_exceptions.md R93). -/
inductive Verdict where
  | respond (r : Response)
  | refuse (reason : RefusalReason)
deriving DecidableEq, Repr

/-- One entry of the log (10_state.md R22). -/
structure Entry where
  unit : UnitName
  request : Instr
  response : Response
deriving DecidableEq, Repr

/-- Where requests queue: one instance of one unit, which answers in the order it accepts (R39, R103).
A reserved selector has no unit. Instances have no identifiers in the block: `inst` is the
model's own tag (log entry 13). -/
structure Lane where
  unit : Option UnitName
  inst : Nat
deriving DecidableEq, Repr

/-- A request the host has presented, and the instance it was presented to. Its operands stay as
presented until it is taken: the host duty of 20_memory.md R44 (log entry 8). -/
structure Presented where
  inst : Nat
  req : Req
deriving DecidableEq, Repr

/-- Reasons to stop with a fault: there are none. "No condition inside the block is fatal"
(60_exceptions.md R98), and an error is a response (10_state.md R23) (log entry 16). -/
inductive Fault where
deriving DecidableEq, Repr

/-- Reasons for which the interface could give an operation no meaning. A refusal in the spec's own sense
is a next state with the mark `refused` set (10_state.md R22), not one of these (log entry 5). -/
inductive Refusal where
  /-- An operation without a meaning. Nothing raises it: all three operations have theirs. Safe. -/
  | notModelled (mnemonic : String)
deriving DecidableEq, Repr

/-- The state. `log` and `refused` are the record of 10_state.md R22; `pending` holds the requests in
flight (R19, R24); `turns` stands for the order the spec leaves open (R39); `params` are the
model's parameters (R8, R9). The block itself holds no state (R14 to R20). -/
structure State where
  /-- Requests presented and not yet taken, oldest first (log entry 1). -/
  pending : List Presented
  /-- Which lane answers next, while the list lasts (FREE VALUE as plain data: log entry 2). -/
  turns : List Lane
  /-- Every response given, in the order given (R22). -/
  log : List Entry
  /-- True once any request has been refused (R22). -/
  refused : Bool
  /-- MAX_PAYLOAD and LATENCY; no step changes them (log entry 3). -/
  params : Config
deriving DecidableEq, Repr

/-- The machine right after reset (R24): no request in flight, an empty log, nothing refused, the
reference parameters. `turns` empty is a DESIGN CHOICE (log entry 2). -/
def State.reset : State :=
  { pending := [], turns := [], log := [], refused := false, params := Config.reference }

end Sys2Proof.Machine
end

