-- ==== Sys2Proof/Machine/Ops.lean ====
section
/-! DEFINITION. The shared operations: bit fields and byte order (00_scope.md R13, 20_memory.md R25),
accesses to a request's own buffers, giving a response, an error or a refusal (10_state.md R22,
60_exceptions.md R93 to R96), which request is taken next (20_memory.md R39), and the host's acts. -/

namespace Sys2Proof.Machine

/-! ## Bits and bytes -/

/-- `v[hi:lo]` (R13). -/
def bits (hi lo v : Nat) : Nat := v / 2 ^ lo % 2 ^ (hi - lo + 1)

/-- `BE_n(v)`: n bytes, most-significant byte first (R13, R25). -/
def be : Nat → Nat → Bytes
  | 0, _ => []
  | n + 1, v => BitVec.ofNat 8 (bits (8 * n + 7) (8 * n) v) :: be n v

/-- `BEval(B)`: the value of B read most-significant byte first (R13, R25). -/
def beVal : Bytes → Nat
  | [] => 0
  | b :: bs => b.toNat * 256 ^ bs.length + beVal bs

/-! ## A request's own buffers (10_state.md R19) -/

/-- `MemRead(buf, off, n)` (R13). -/
def memRead (buf : Bytes) (off n : Nat) : Nat := beVal ((buf.drop off).take n)

/-- The bytes `src` in place of as many bytes of `buf` from offset `off` on. -/
def copyInto (buf : Bytes) (off : Nat) (src : Bytes) : Bytes :=
  buf.take off ++ (src ++ buf.drop (off + src.length))

/-- `MemWrite(buf, off, n, v)` (R13). -/
def memWrite (buf : Bytes) (off n v : Nat) : Bytes := copyInto buf off (be n v)

/-- "a new buffer of" n bytes (40_encoder.md R66), whose contents are free values (log entry 9). -/
def newBuffer (n : Nat) : Bytes := (List.range n).map Config.freshByte

/-! ## Responses (30_encoding.md R54) -/

/-- Status OK. -/
abbrev statusOk : BitVec 2 := 0b00#2

/-- Status OutOfRange. -/
abbrev statusOutOfRange : BitVec 2 := 0b01#2

/-- Status TruncatedInput. -/
abbrev statusTruncatedInput : BitVec 2 := 0b10#2

/-- `return r` (R13): status OK and the result. -/
def returnOk (r : Result) : Response := { status := statusOk, result := some r }

/-- `raise` (R13): an error is its status alone, with no result value (R90, R91). The block's whole
exception entry: nothing is saved, no mode changes, no handler exists (R96), so nothing returns
from one either (R97). -/
def raise (status : BitVec 2) : Response := { status := status, result := none }

/-! ## What a step does with a verdict (10_state.md R22) -/

/-- A response is appended to the log with its unit and request. -/
def State.respond (i : Instr) (r : Response) (s : State) : State :=
  { s with log := s.log ++ [{ unit := i.unit, request := i, response := r }] }

/-- A refusal sets the mark for good and logs nothing (R22, R93). The state has no place for the
reason: R22's record is "nothing else". -/
def State.refuse (_reason : RefusalReason) (s : State) : State := { s with refused := true }

/-- The state after the verdict on request `i`. -/
def State.settle (i : Instr) (v : Verdict) (s : State) : State :=
  match v with
  | .respond r => s.respond i r
  | .refuse reason => s.refuse reason

/-! ## Which request is taken (20_memory.md R39) -/

/-- The lane of a presented request. -/
def Presented.lane (p : Presented) : Lane := { unit := unitOfOp p.req.op, inst := p.inst }

/-- The oldest request of a lane and the requests left behind it and beside it, if the lane has one.
R39 orders a unit's responses by the order it accepts requests and leaves open in which order it accepts
those already presented: that an instance accepts them in the order presented is a DESIGN CHOICE (log
entry 18). -/
def takeLane (l : Lane) : List Presented → Option (Presented × List Presented)
  | [] => none
  | p :: ps =>
    if p.lane = l then some (p, ps)
    else (takeLane l ps).map fun q => (q.1, p :: q.2)

/-- The oldest request of all. -/
def takeOldest : List Presented → Option (Presented × List Presented)
  | [] => none
  | p :: ps => some (p, ps)

/-- The request taken next: the oldest of the lane whose turn it is, or the oldest of all where no
turn is given or that lane is idle. Any choice among lanes is some list of turns (log entry 2). -/
def takeNext (turns : List Lane) (pending : List Presented) : Option (Presented × List Presented) :=
  match turns with
  | [] => takeOldest pending
  | l :: _ => (takeLane l pending).or (takeOldest pending)

/-- Take the next request out of the state: the request, and the state it is served in. -/
def State.accept (s : State) : Option (Presented × State) :=
  match takeNext s.turns s.pending with
  | none => none
  | some (p, rest) => some (p, { s with pending := rest, turns := s.turns.tail })

/-! ## The host's acts (20_memory.md R44, 70_reset_and_hazards.md R107) -/

/-- The host presents a request behind those already in flight. -/
def State.present (p : Presented) (s : State) : State := { s with pending := s.pending ++ [p] }

/-- The host presents a request that is to be taken next of all, by its lane's turn. -/
def State.presentNext (p : Presented) (s : State) : State :=
  { s with pending := p :: s.pending, turns := p.lane :: s.turns }

/-- The reset of the block: requests in flight are discarded with no response, and the model's record
is as after power-up (R24, R106, R107). The parameters are no state and stay (log entry 11). -/
def State.hostReset (s : State) : State := { State.reset with params := s.params }

end Sys2Proof.Machine
end

