-- ==== Sys2Proof/Machine/Operands.lean ====
section
/-! DEFINITION. The operand forms: the header's fields with their widths and offsets (00_scope.md R7,
30_encoding.md R46) and the two checks ENCODE makes on its operands (40_encoder.md R69, R70). -/

namespace Sys2Proof.Machine

/-! ## Widths and offsets -/

/-- SEQ_W (R7). -/
abbrev seqWidth : Nat := 32
/-- ACK_W (R7). -/
abbrev ackWidth : Nat := 32
/-- FLAGS_W (R7). -/
abbrev flagsWidth : Nat := 16
/-- WIN_W (R7). -/
abbrev winWidth : Nat := 16
/-- HEADER_BYTES (R7). -/
abbrev headerBytes : Nat := 12

/-- Offset of seq in the header (R35, R46). -/
abbrev seqOffset : Nat := 0
/-- Offset of ack (R35, R46). -/
abbrev ackOffset : Nat := 4
/-- Offset of flags (R35, R46). -/
abbrev flagsOffset : Nat := 8
/-- Offset of win (R35, R46). -/
abbrev winOffset : Nat := 10

/-! ## Checks on the operands of ENCODE -/

/-- The range check (R70): some numeric operand exceeds its width. -/
def outOfRange (seq ack flags win : Nat) : Bool :=
  decide (2 ^ seqWidth ≤ seq) || decide (2 ^ ackWidth ≤ ack) ||
    decide (2 ^ flagsWidth ≤ flags) || decide (2 ^ winWidth ≤ win)

/-- MAX_PAYLOAD is finite and the payload is longer (R8, R69). -/
def beyondMaxPayload (c : Config) (payload : Bytes) : Bool :=
  match c.maxPayload with
  | none => false
  | some n => decide (n < payload.length)

/-! ## Fields of a header (20_memory.md R35) -/

/-- seq as read from a packet: bytes 0 to 3. -/
def readSeq (packet : Bytes) : BitVec 32 := BitVec.ofNat 32 (memRead packet seqOffset 4)
/-- ack as read from a packet: bytes 4 to 7. -/
def readAck (packet : Bytes) : BitVec 32 := BitVec.ofNat 32 (memRead packet ackOffset 4)
/-- flags as read from a packet: bytes 8 and 9, reserved bits included (R60). -/
def readFlags (packet : Bytes) : BitVec 16 := BitVec.ofNat 16 (memRead packet flagsOffset 2)
/-- win as read from a packet: bytes 10 and 11. -/
def readWin (packet : Bytes) : BitVec 16 := BitVec.ofNat 16 (memRead packet winOffset 2)

/-- The payload the host takes from a packet itself: the bytes from offset 12 on (R79). -/
def payloadOf (packet : Bytes) : Bytes := packet.drop headerBytes

end Sys2Proof.Machine
end

