-- ==== Sys2Proof/Machine/Flags.lean ====
section
/-! DEFINITION. The header's flags field (30_encoding.md R50, R57; 42_flag_extractor.md R88). The block
has no status flags (10_state.md R16): these are bits of data. -/

namespace Sys2Proof.Machine

/-- The three defined flags (R88). -/
inductive FlagName where
  | fin
  | ack
  | syn
deriving DecidableEq, Repr

/-- The bit position of a flag (R50, R88). -/
def FlagName.bit : FlagName → Nat
  | .fin => 1
  | .ack => 2
  | .syn => 3

/-- The value contribution of a flag: 2, 4 and 8 (R50). -/
def FlagName.value (f : FlagName) : Nat := 2 ^ f.bit

/-- The flag's boolean, the projection of its one bit (R57). -/
def flagSet (flags : BitVec 16) (f : FlagName) : Bool := flags.getLsbD f.bit

/-- The mask of all defined bits (R50). -/
def definedMask : BitVec 16 := 0x000E#16

/-- The mask of all reserved bits (R50). -/
def reservedMask : BitVec 16 := 0xFFF1#16

end Sys2Proof.Machine
end

