-- ==== Sys2Proof/Machine/Decoder.lean ====
section
/-! DEFINITION. DECODE_HEADER, the operation of the unit packet_header_decoder (41_decoder.md). -/

namespace Sys2Proof.Machine

/-- R74: TruncatedInput when fewer than 12 bytes are given, else the four fields of bytes 0 to 11. -/
def decodeHeaderResponse (input : Bytes) : Response :=
  if input.length < headerBytes then raise statusTruncatedInput
  else returnOk (.header (readSeq input) (readAck input) (readFlags input) (readWin input))

/-- The meaning of DECODE_HEADER (R74). -/
def execDecodeHeader (input : Bytes) (s : State) : Host.Outcome State Fault Refusal :=
  .next (s.settle (.decodeHeader input) (.respond (decodeHeaderResponse input)))

end Sys2Proof.Machine
end

