-- ==== Sys2Proof/Machine/Encoder.lean ====
section
/-! DEFINITION. ENCODE, the operation of the unit packet_header_encoder (40_encoder.md). -/

namespace Sys2Proof.Machine

/-- The packet ENCODE builds, as R66 builds it: a new buffer, the four fields written at their
offsets, the payload copied verbatim behind them. -/
def encodePacket (seq ack flags win : Nat) (payload : Bytes) : Bytes :=
  let out := newBuffer (headerBytes + payload.length)
  let out := memWrite out seqOffset 4 seq
  let out := memWrite out ackOffset 4 ack
  let out := memWrite out flagsOffset 2 flags
  let out := memWrite out winOffset 2 win
  copyInto out headerBytes payload

/-- R66: the refusal before the error check (R95), one OutOfRange for any operand past its width
(R70), else the packet. No other check is made (R71). -/
def encodeVerdict (c : Config) (seq ack flags win : Nat) (payload : Bytes) : Verdict :=
  if beyondMaxPayload c payload then .refuse .payloadBeyondMaxPayload
  else if outOfRange seq ack flags win then .respond (raise statusOutOfRange)
  else .respond (returnOk (.packet (encodePacket seq ack flags win payload)))

/-- The meaning of ENCODE (R66). -/
def execEncode (seq ack flags win : Nat) (payload : Bytes) (s : State) :
    Host.Outcome State Fault Refusal :=
  .next (s.settle (.encode seq ack flags win payload) (encodeVerdict s.params seq ack flags win payload))

end Sys2Proof.Machine
end

