-- ==== Sys2Proof/Machine/FlagExtractor.lean ====
section
/-! DEFINITION. DECODE_FLAGS, the operation of the unit flag_bit_extractor (42_flag_extractor.md). -/

namespace Sys2Proof.Machine

/-- R81: the booleans of SYN, ACK and FIN, in that order (R86). -/
def decodeFlagsResponse (flags : BitVec 16) : Response :=
  returnOk (.booleans (flagSet flags .syn) (flagSet flags .ack) (flagSet flags .fin))

/-- The meaning of DECODE_FLAGS (R81). -/
def execDecodeFlags (flags : BitVec 16) (s : State) : Host.Outcome State Fault Refusal :=
  .next (s.settle (.decodeFlags flags) (.respond (decodeFlagsResponse flags)))

end Sys2Proof.Machine
end

