-- ==== Sys2Proof/Machine/Dispatch.lean ====
section
/-! DEFINITION. One arm per operation. -/

namespace Sys2Proof.Machine

def exec (i : Instr) (s : State) : Host.Outcome State Fault Refusal :=
  match i with
  | .encode seq ack flags win payload => Sys2Proof.Machine.execEncode seq ack flags win payload s
  | .decodeHeader input => Sys2Proof.Machine.execDecodeHeader input s
  | .decodeFlags flags => Sys2Proof.Machine.execDecodeFlags flags s

end Sys2Proof.Machine
end

