-- ==== Sys2Proof/Machine/Service.lean ====
section
/-! DEFINITION. The response function of a request taken by itself (20_memory.md R38), and the serving
of one accepted request. -/

namespace Sys2Proof.Machine

/-- What the block gives an operation presented alone (R33, R38): a function of the operation and of
MAX_PAYLOAD, of nothing else. -/
def verdictOf (c : Config) : Instr → Verdict
  | .encode seq ack flags win payload => encodeVerdict c seq ack flags win payload
  | .decodeHeader input => .respond (decodeHeaderResponse input)
  | .decodeFlags flags => .respond (decodeFlagsResponse flags)

/-- What the block gives a request presented alone: `op = 0b11` is refused before anything else (R59, R95). -/
def verdictOfReq (c : Config) (r : Req) : Verdict :=
  match decode r with
  | .ok i => verdictOf c i
  | .error reason => .refuse reason

/-- The log entry a request gets when it is presented alone; a refused request gets none (R93). -/
def aloneEntry (c : Config) (r : Req) : Option Entry :=
  match decode r with
  | .error _ => none
  | .ok i =>
    match verdictOf c i with
    | .respond rsp => some { unit := i.unit, request := i, response := rsp }
    | .refuse _ => none

/-- A request presented alone is refused (R93). -/
def aloneRefused (c : Config) (r : Req) : Bool := (aloneEntry c r).isNone

/-- Serve one accepted request: decode it, and run its operation or refuse it by name (R22, R59). -/
def serve (r : Req) (s : State) : Host.Outcome State Fault Refusal :=
  match decode r with
  | .ok i => exec i s
  | .error reason => .next (s.refuse reason)

end Sys2Proof.Machine
end

