-- ==== Sys2Proof/Machine/Step.lean ====
section
/-! DEFINITION. One step takes one request presented by the host (10_state.md R22). -/

namespace Sys2Proof.Machine

/-- Take the next request and serve it. With no request in flight the block is idle, and nothing
changes (70_reset_and_hazards.md R113; DESIGN CHOICE: log entry 6). -/
def step (s : State) : Host.Outcome State Fault Refusal :=
  match s.accept with
  | none => .next s
  | some (p, s') => serve p.req s'

/-- `s` with the request of table word `w` presented so that the very next step takes it: the block
fetches nothing, so this stands for the host's presenting it (10_state.md R15; log entry 10). -/
def State.withFetchWord (s : State) (nbits w : Nat) : State :=
  s.presentNext { inst := 0, req := reqOfTableWord nbits w }

end Sys2Proof.Machine
end

