-- ==== Sys2Proof/Machine/Ports.lean ====
section
/-! DEFINITION. The ports each unit can be built with (30_encoding.md R55), their narrower forms
(40_encoder.md R73, 41_decoder.md R80), and what the result ports show of a response. A result port
may drive any level during an error (R54): those levels are an argument, `levels`, that nothing
constrains (FREE VALUE: log entry 12). -/

namespace Sys2Proof.Machine

/-! ## packet_header_encoder -/

/-- Inputs of the encoder, with the widths of its four numeric ports; the payload is the first `encLen`
of the payload port's bytes. The widths of R55 are 32, 32, 16 and 16, "wider where the host's values are
wider". -/
structure EncoderIn (seqW ackW flagsW winW : Nat) where
  encSeq : BitVec seqW
  encAck : BitVec ackW
  encFlags : BitVec flagsW
  encWin : BitVec winW
  encPay : Bytes
  encLen : Nat
deriving DecidableEq, Repr

/-- The encoder whose ports are exactly as wide as the fields (R73). -/
abbrev NativeEncoderIn := EncoderIn 32 32 16 16

/-- Outputs of the encoder (R55). -/
structure EncoderOut where
  encStatus : BitVec 2
  encPkt : Bytes
  encPktLen : Nat
deriving DecidableEq, Repr

/-- The operation the encoder's inputs ask for. -/
def EncoderIn.toInstr {a b c d : Nat} (p : EncoderIn a b c d) : Instr :=
  .encode p.encSeq.toNat p.encAck.toNat p.encFlags.toNat p.encWin.toNat (p.encPay.take p.encLen)

/-- What the encoder's outputs show of a response. -/
def encoderOut (levels : EncoderOut) (r : Response) : EncoderOut :=
  match r.result with
  | some (.packet bytes) => { encStatus := r.status, encPkt := bytes, encPktLen := bytes.length }
  | _ => { levels with encStatus := r.status }

/-- The encoder from its inputs to its outputs; a refused request gets no response (R93). -/
def encoderUnit {a b c d : Nat} (cfg : Config) (levels : EncoderOut) (p : EncoderIn a b c d) :
    Option EncoderOut :=
  match verdictOf cfg p.toInstr with
  | .respond r => some (encoderOut levels r)
  | .refuse _ => none

/-! ## packet_header_decoder -/

/-- Inputs of the decoder: N, and the first min(N, 12) bytes of IN (R55, R80). -/
structure DecoderIn where
  decLen : Nat
  decIn : Bytes
deriving DecidableEq, Repr

/-- The inputs with the single bit `N >= 12` in place of N (R80). -/
structure DecoderBitIn where
  decFull : Bool
  decIn : Bytes
deriving DecidableEq, Repr

/-- Outputs of the decoder (R55). -/
structure DecoderOut where
  decStatus : BitVec 2
  decSeq : BitVec 32
  decAck : BitVec 32
  decFlags : BitVec 16
  decWin : BitVec 16
deriving DecidableEq, Repr

/-- What the host drives for an input IN. -/
def DecoderIn.ofInput (input : Bytes) : DecoderIn :=
  { decLen := input.length, decIn := input.take headerBytes }

/-- What the host drives for an input IN on ports with the single bit. -/
def DecoderBitIn.ofInput (input : Bytes) : DecoderBitIn :=
  { decFull := decide (headerBytes ≤ input.length), decIn := input.take headerBytes }

/-- The decoder's response from its ports with the single bit. -/
def decoderBitResponse (p : DecoderBitIn) : Response :=
  if p.decFull then
    returnOk (.header (readSeq p.decIn) (readAck p.decIn) (readFlags p.decIn) (readWin p.decIn))
  else raise statusTruncatedInput

/-- The decoder's response from its ports. -/
def decoderPortResponse (p : DecoderIn) : Response :=
  decoderBitResponse { decFull := decide (headerBytes ≤ p.decLen), decIn := p.decIn }

/-- What the decoder's outputs show of a response. -/
def decoderOut (levels : DecoderOut) (r : Response) : DecoderOut :=
  match r.result with
  | some (.header seq ack flags win) =>
    { decStatus := r.status, decSeq := seq, decAck := ack, decFlags := flags, decWin := win }
  | _ => { levels with decStatus := r.status }

/-- The decoder from its inputs to its outputs. -/
def decoderUnit (levels : DecoderOut) (p : DecoderIn) : DecoderOut :=
  decoderOut levels (decoderPortResponse p)

/-! ## flag_bit_extractor -/

/-- Outputs of the flag extractor: one bit each, 1 = true (R55). Its one input is `fx_flags`. -/
structure FlagOut where
  fxSyn : BitVec 1
  fxAck : BitVec 1
  fxFin : BitVec 1
deriving DecidableEq, Repr

/-- The flag extractor from its input to its outputs. -/
def flagUnit (fxFlags : BitVec 16) : FlagOut :=
  { fxSyn := BitVec.ofBool (flagSet fxFlags .syn),
    fxAck := BitVec.ofBool (flagSet fxFlags .ack),
    fxFin := BitVec.ofBool (flagSet fxFlags .fin) }

end Sys2Proof.Machine
end

