-- ==== Sys2Proof/Machine/RequestForms.lean ====
section
/-! DEFINITION. What a request written by a host stands for (30_encoding.md R64), and the two
pseudo-requests (R65). The references `$k` are the host's plumbing, not the block's. -/

namespace Sys2Proof.Machine

/-- The field named in `$k.seq`, `$k.ack`, `$k.flags` or `$k.win`. -/
inductive FieldName where
  | seq
  | ack
  | flags
  | win
deriving DecidableEq, Repr

/-- A numeric operand as written. -/
inductive NumForm where
  /-- A decimal, hexadecimal or binary literal. -/
  | literal (n : Nat)
  /-- `2**k`. -/
  | power (k : Nat)
  /-- One or more of FIN, ACK and SYN joined by a bar. -/
  | flags (names : List FlagName)
  /-- A field of the result of request k. -/
  | field (k : Nat) (name : FieldName)
deriving DecidableEq, Repr

/-- A byte operand as written. -/
inductive BytesForm where
  /-- `b"..."` or `[HH HH ...]`. -/
  | literal (bytes : Bytes)
  /-- `b"..."*n` or `bytes(n, x)`. -/
  | copies (n : Nat) (bytes : Bytes)
  /-- `$k`, the packet request k gave. -/
  | result (k : Nat)
deriving DecidableEq, Repr

/-- A request as written. -/
inductive RequestForm where
  | encode (seq ack flags win : NumForm) (payload : BytesForm)
  | decodeHeader (input : BytesForm)
  | decodeFlags (flags : NumForm)
  | dataPkt (seq ack win : NumForm) (payload : BytesForm)
  | ackPkt (seq ack win : NumForm)
deriving DecidableEq, Repr

/-- `DATA_PKT seq, ack, win, payload`: ENCODE with flags 0; its payload's length is not checked (R65). -/
def dataPkt (seq ack win : Nat) (payload : Bytes) : Instr := .encode seq ack 0 win payload

/-- `ACK_PKT seq, ack, win`: ENCODE with flags 4 and an empty payload (R65). -/
def ackPkt (seq ack win : Nat) : Instr := .encode seq ack 4 win []

/-- The result of request k, counting from 1, where `responses` holds what each request so far was
given, `none` for a refused one. -/
def resultNamed (responses : List (Option Response)) : Nat → Option Result
  | 0 => none
  | k + 1 => (responses[k]?).join.bind Response.result

/-- A field of a result: a returned field of DECODE_HEADER, or the field the host reads from bytes 0
to 11 of an ENCODE's packet (R64). -/
def fieldOf : Result → FieldName → Option Nat
  | .packet bytes, .seq => some (readSeq bytes).toNat
  | .packet bytes, .ack => some (readAck bytes).toNat
  | .packet bytes, .flags => some (readFlags bytes).toNat
  | .packet bytes, .win => some (readWin bytes).toNat
  | .header seq _ _ _, .seq => some seq.toNat
  | .header _ ack _ _, .ack => some ack.toNat
  | .header _ _ flags _, .flags => some flags.toNat
  | .header _ _ _ win, .win => some win.toNat
  | .booleans _ _ _, _ => none

/-- The value of a numeric operand. -/
def NumForm.value (responses : List (Option Response)) : NumForm → Option Nat
  | .literal n => some n
  | .power k => some (2 ^ k)
  | .flags names => some (names.foldl (fun v f => v ||| f.value) 0)
  | .field k name => (resultNamed responses k).bind fun r => fieldOf r name

/-- The value of a byte operand. -/
def BytesForm.value (responses : List (Option Response)) : BytesForm → Option Bytes
  | .literal bytes => some bytes
  | .copies n bytes => some (List.replicate n bytes).flatten
  | .result k =>
    match resultNamed responses k with
    | some (.packet bytes) => some bytes
    | _ => none

/-- The one operation a written request stands for, if its operands have values the operation can be
given. A DECODE_FLAGS operand of 2^16 or more cannot be presented (42_flag_extractor.md R87). -/
def RequestForm.expand (responses : List (Option Response)) : RequestForm → Option Instr
  | .encode seq ack flags win payload => do
    let s ← seq.value responses
    let a ← ack.value responses
    let f ← flags.value responses
    let w ← win.value responses
    let p ← payload.value responses
    some (.encode s a f w p)
  | .decodeHeader input => do
    let b ← input.value responses
    some (.decodeHeader b)
  | .decodeFlags flags => do
    let f ← flags.value responses
    if f < 2 ^ flagsWidth then some (.decodeFlags (BitVec.ofNat 16 f)) else none
  | .dataPkt seq ack win payload => do
    let s ← seq.value responses
    let a ← ack.value responses
    let w ← win.value responses
    let p ← payload.value responses
    some (Machine.dataPkt s a w p)
  | .ackPkt seq ack win => do
    let s ← seq.value responses
    let a ← ack.value responses
    let w ← win.value responses
    some (Machine.ackPkt s a w)

end Sys2Proof.Machine
end

