-- ==== Sys2Proof/Machine/RequestText.lean ====
section
/-! DEFINITION. The written form of a request, character by character (30_encoding.md R64, R65). What
R64 leaves unsaid of the spelling is in log entry 15. A reader answers what it read and the characters
after it, or nothing. -/

namespace Sys2Proof.Machine

/-- The characters after any spaces. -/
def skipSpaces (cs : List Char) : List Char := cs.dropWhile (· == ' ')

/-- The characters after the expected one, spaces before it skipped. -/
def expect (c : Char) (cs : List Char) : Option (List Char) :=
  match skipSpaces cs with
  | [] => none
  | d :: rest => if d = c then some rest else none

/-- The value of a digit in a base up to 16. -/
def digitValue (base : Nat) (c : Char) : Option Nat :=
  let n := c.toNat
  let d :=
    if 48 ≤ n ∧ n < 58 then n - 48
    else if 97 ≤ n ∧ n < 103 then n - 87
    else if 65 ≤ n ∧ n < 71 then n - 55
    else base
  if d < base then some d else none

/-- The digits still to come, after digits of value `acc`; `seen` says whether there was one. -/
def readDigitsFrom (base : Nat) : List Char → Nat → Bool → Option (Nat × List Char)
  | [], acc, seen => if seen then some (acc, []) else none
  | c :: cs, acc, seen =>
    match digitValue base c with
    | some d => readDigitsFrom base cs (acc * base + d) true
    | none => if seen then some (acc, c :: cs) else none

/-- A numeral in a base. -/
def readDigits (base : Nat) (cs : List Char) : Option (Nat × List Char) := readDigitsFrom base cs 0 false

/-- The letters and underscores that come first. -/
def readWord (cs : List Char) : List Char × List Char :=
  (cs.takeWhile (fun c => c.isAlpha || c == '_'), cs.dropWhile (fun c => c.isAlpha || c == '_'))

/-- The field name after `$k.`. -/
def fieldNamed (w : List Char) : Option FieldName :=
  if w = "seq".toList then some .seq
  else if w = "ack".toList then some .ack
  else if w = "flags".toList then some .flags
  else if w = "win".toList then some .win
  else none

/-- A flag name. -/
def flagNamed (w : List Char) : Option FlagName :=
  if w = "FIN".toList then some .fin
  else if w = "ACK".toList then some .ack
  else if w = "SYN".toList then some .syn
  else none

/-- A numeric operand: `0x`, `0b`, `2**k`, `$k.field` or decimal. R64 does not spell the two k: decimal
digits, with no space before them, are PRESUMED (log entry 15). -/
def readNumber (cs : List Char) : Option (NumForm × List Char) :=
  match skipSpaces cs with
  | '0' :: 'x' :: r => (readDigits 16 r).map fun q => (.literal q.1, q.2)
  | '0' :: 'b' :: r => (readDigits 2 r).map fun q => (.literal q.1, q.2)
  | '2' :: '*' :: '*' :: r => (readDigits 10 r).map fun q => (.power q.1, q.2)
  | '$' :: r => do
    let (k, r) ← readDigits 10 r
    let r ← expect '.' r
    let (w, r) := readWord r
    let f ← fieldNamed w
    some (.field k f, r)
  | r => (readDigits 10 r).map fun q => (.literal q.1, q.2)

/-- Flag names joined by a bar, at most `fuel` of them. -/
def readFlagNames : Nat → List Char → Option (List FlagName × List Char)
  | 0, _ => none
  | fuel + 1, cs => do
    let (w, r) := readWord (skipSpaces cs)
    let f ← flagNamed w
    match skipSpaces r with
    | '|' :: r => do
      let (fs, r) ← readFlagNames fuel r
      some (f :: fs, r)
    | r => some ([f], r)

/-- A flags operand: flag names, or a numeric operand. -/
def readFlagsOperand (cs : List Char) : Option (NumForm × List Char) :=
  match readFlagNames cs.length cs with
  | some (fs, r) => some (.flags fs, r)
  | none => readNumber cs

/-- A byte written as two hexadecimal digits. -/
def hexPair (h l : Char) : Option Byte := do
  let a ← digitValue 16 h
  let b ← digitValue 16 l
  some (BitVec.ofNat 8 (16 * a + b))

/-- The bytes up to the closing quote: characters, and escapes of two hexadecimal digits. -/
def readQuoted : List Char → Option (Bytes × List Char)
  | '"' :: r => some ([], r)
  | '\\' :: 'x' :: h :: l :: r => do
    let b ← hexPair h l
    let (bs, r) ← readQuoted r
    some (b :: bs, r)
  | '\\' :: _ => none
  | c :: r =>
    if c.toNat < 128 then do
      let (bs, r) ← readQuoted r
      some (BitVec.ofNat 8 c.toNat :: bs, r)
    else none
  | [] => none

/-- The bytes up to the closing bracket: pairs of hexadecimal digits, spaces between them. -/
def readHexList : List Char → Option (Bytes × List Char)
  | ']' :: r => some ([], r)
  | ' ' :: r => readHexList r
  | h :: l :: r => do
    let b ← hexPair h l
    let (bs, r) ← readHexList r
    some (b :: bs, r)
  | _ => none

/-- `(n, x)` of `bytes(n, x)`. R64 spells neither: n in decimal digits and x in two hexadecimal digits
are PRESUMED (log entry 15). -/
def readCopies (cs : List Char) : Option (BytesForm × List Char) := do
  let r ← expect '(' cs
  let (n, r) ← readDigits 10 (skipSpaces r)
  let r ← expect ',' r
  match skipSpaces r with
  | h :: l :: r => do
    let b ← hexPair h l
    let r ← expect ')' r
    some (.copies n [b], r)
  | _ => none

/-- A byte operand. That the n of `b"c"*n` is in decimal digits, with no space around `*`, and the k of
`$k` in decimal digits is PRESUMED: R64 does not spell them (log entry 15). -/
def readBytes (cs : List Char) : Option (BytesForm × List Char) :=
  match skipSpaces cs with
  | 'b' :: '"' :: r => do
    let (bs, r) ← readQuoted r
    match r with
    | '*' :: r => (readDigits 10 r).map fun q => (.copies q.1 bs, q.2)
    | r => some (.literal bs, r)
  | '[' :: r => (readHexList r).map fun q => (.literal q.1, q.2)
  | '$' :: r => (readDigits 10 r).map fun q => (.result q.1, q.2)
  | r =>
    let (w, r) := readWord r
    if w = "bytes".toList then readCopies r else none

/-- A numeric operand and the comma after it. -/
def readNumberComma (cs : List Char) : Option (NumForm × List Char) := do
  let (n, r) ← readNumber cs
  let r ← expect ',' r
  some (n, r)

/-- The operands of the named request. -/
def readOperands (w cs : List Char) : Option (RequestForm × List Char) :=
  if w = "ENCODE".toList then do
    let (s, r) ← readNumberComma cs
    let (a, r) ← readNumberComma r
    let (f, r) ← readFlagsOperand r
    let r ← expect ',' r
    let (v, r) ← readNumberComma r
    let (p, r) ← readBytes r
    some (.encode s a f v p, r)
  else if w = "DECODE_HEADER".toList then
    (readBytes cs).map fun q => (.decodeHeader q.1, q.2)
  else if w = "DECODE_FLAGS".toList then
    (readFlagsOperand cs).map fun q => (.decodeFlags q.1, q.2)
  else if w = "DATA_PKT".toList then do
    let (s, r) ← readNumberComma cs
    let (a, r) ← readNumberComma r
    let (v, r) ← readNumberComma r
    let (p, r) ← readBytes r
    some (.dataPkt s a v p, r)
  else if w = "ACK_PKT".toList then do
    let (s, r) ← readNumberComma cs
    let (a, r) ← readNumberComma r
    let (v, r) ← readNumber r
    some (.ackPkt s a v, r)
  else none

/-- The request a line of text writes, if it is one. -/
def parseRequest (text : String) : Option RequestForm := do
  let (w, r) := readWord (skipSpaces text.toList)
  let (f, r) ← readOperands w r
  if (skipSpaces r).isEmpty then some f else none

end Sys2Proof.Machine
end

