-- ==== Sys2Proof/Safety.lean ====
section
/-! DEFINITION. What a run shows, which runs support a claim (70_reset_and_hazards.md R113), and the
properties of states that the claims are stated with. -/

namespace Sys2Proof.Machine

/-- What a run shows: `log` together with `refused` (R113). -/
def State.shows (s : State) : List Entry × Bool := (s.log, s.refused)

/-- The run has ended: every request presented has a response or a refusal (R113). -/
abbrev State.ended (s : State) : Prop := s.pending = []

/-- "A run with `refused = true` supports no claim" (R113). -/
abbrev State.supportsClaims (s : State) : Prop := s.refused = false

/-- The status and result a response of a unit may have (30_encoding.md R54, R61): OK with a result of
the unit's own kind, or the unit's own error status with no result. -/
def Response.wfFor (u : UnitName) (r : Response) : Bool :=
  match u with
  | .packetHeaderEncoder =>
    match r.result with
    | some (.packet bytes) => r.status == statusOk && decide (headerBytes ≤ bytes.length)
    | none => r.status == statusOutOfRange
    | some (.header _ _ _ _) => false
    | some (.booleans _ _ _) => false
  | .packetHeaderDecoder =>
    match r.result with
    | some (.header _ _ _ _) => r.status == statusOk
    | none => r.status == statusTruncatedInput
    | some (.packet _) => false
    | some (.booleans _ _ _) => false
  | .flagBitExtractor =>
    match r.result with
    | some (.booleans _ _ _) => r.status == statusOk
    | none => false
    | some (.packet _) => false
    | some (.header _ _ _ _) => false

/-- A log entry is what its request gets presented alone, recorded under the unit that performs it
(20_memory.md R38). -/
abbrev Entry.sound (c : Config) (e : Entry) : Prop :=
  e.unit = e.request.unit ∧ verdictOf c e.request = .respond e.response

/-- Every entry of the log is sound. -/
abbrev State.logSound (s : State) : Prop := ∀ e ∈ s.log, e.sound s.params

/-- The parameters are legal (00_scope.md R8) and the log is sound: what every step keeps. -/
abbrev State.inv (s : State) : Prop := s.params.wf = true ∧ s.logSound

/-- The entries the requests in flight get when each is presented alone, in the order presented. -/
def State.owed (s : State) : List Entry := s.pending.filterMap fun p => aloneEntry s.params p.req

/-- The entries of one unit, in order. -/
def ofUnit (u : UnitName) (es : List Entry) : List Entry := es.filter fun e => decide (e.unit = u)

/-- All requests in flight for a unit are with one instance of it. -/
abbrev State.singleInstance (s : State) (u : UnitName) (k : Nat) : Prop :=
  ∀ p ∈ s.pending, unitOfOp p.req.op = some u → p.inst = k

end Sys2Proof.Machine
end

