-- ==== Sys2Proof/Certificates/Slice0/Obligations.lean ====
section
/-! DEFINITION. The statements, each with the rule of spec/ it formalises. A statement about a request
holds for every state, so for every value of MAX_PAYLOAD and LATENCY and every order of the lanes. -/

open Sys2Proof Sys2Proof.Machine

/-! ## ENCODE -/

/-- 40_encoder.md R66: the selector, the refusal past a finite MAX_PAYLOAD, OutOfRange for an operand
past its width, and else the packet; no other field of the state changes. The selector clauses rest on
D2 and log entry 7, the refusal, a next state, on D6 and log entry 5. -/
def Obligations.EncodeFollowsItsRule : Prop :=
  ∀ (seq ack flags win : Nat) (payload : Bytes) (s : State),
    decode (encode (.encode seq ack flags win payload)) = .ok (.encode seq ack flags win payload) ∧
    (encode (.encode seq ack flags win payload)).op = 0b00#2 ∧
    (∀ m, s.params.maxPayload = some m → m < payload.length →
      exec (.encode seq ack flags win payload) s = .next { s with refused := true }) ∧
    ((∀ m, s.params.maxPayload = some m → payload.length ≤ m) →
      (2 ^ 32 ≤ seq ∨ 2 ^ 32 ≤ ack ∨ 2 ^ 16 ≤ flags ∨ 2 ^ 16 ≤ win →
        exec (.encode seq ack flags win payload) s = .next { s with
          log := s.log ++ [⟨.packetHeaderEncoder, .encode seq ack flags win payload,
            ⟨0b01#2, none⟩⟩] }) ∧
      (seq < 2 ^ 32 → ack < 2 ^ 32 → flags < 2 ^ 16 → win < 2 ^ 16 →
        exec (.encode seq ack flags win payload) s = .next { s with
          log := s.log ++ [⟨.packetHeaderEncoder, .encode seq ack flags win payload,
            ⟨0b00#2, some (.packet
              (be 4 seq ++ be 4 ack ++ be 2 flags ++ be 2 win ++ payload))⟩⟩] }))

/-- 40_encoder.md R67: whatever the operands, the fields lie in the order seq, ack, flags, win at
offsets 0, 4, 8 and 10 with widths 4, 4, 2 and 2, each field's bytes being its own alone. -/
def Obligations.EncodeFieldOrderOffsetsAndWidths : Prop :=
  ∀ (seq ack flags win : Nat) (payload : Bytes) (s : State),
    seq < 2 ^ 32 → ack < 2 ^ 32 → flags < 2 ^ 16 → win < 2 ^ 16 →
    (∀ m, s.params.maxPayload = some m → payload.length ≤ m) →
    ∃ packet, exec (.encode seq ack flags win payload) s = .next { s with
        log := s.log ++ [⟨.packetHeaderEncoder, .encode seq ack flags win payload,
          ⟨0b00#2, some (.packet packet)⟩⟩] } ∧
      packet.take 4 = be 4 seq ∧ (packet.drop 4).take 4 = be 4 ack ∧
      (packet.drop 8).take 2 = be 2 flags ∧ (packet.drop 10).take 2 = be 2 win

/-- 40_encoder.md R68: a successful ENCODE returns exactly 12 + len(payload) bytes. -/
def Obligations.EncodePacketLength : Prop :=
  ∀ (seq ack flags win : Nat) (payload packet : Bytes) (s t : State),
    exec (.encode seq ack flags win payload) s = .next t →
    t.log = s.log ++ [⟨.packetHeaderEncoder, .encode seq ack flags win payload,
      ⟨0b00#2, some (.packet packet)⟩⟩] →
    packet.length = 12 + payload.length

/-- 40_encoder.md R69: the payload is copied verbatim whatever its length while MAX_PAYLOAD is unbounded or
not below that length; past a finite MAX_PAYLOAD the request is refused, not answered (a decision the spec
marks as its own: D6). -/
def Obligations.EncodeCopiesPayloadOfAnyLength : Prop :=
  ∀ (seq ack flags win : Nat) (payload : Bytes) (s : State),
    seq < 2 ^ 32 → ack < 2 ^ 32 → flags < 2 ^ 16 → win < 2 ^ 16 →
    ((s.params.maxPayload = none ∨ ∃ m, s.params.maxPayload = some m ∧ payload.length ≤ m) →
      ∃ packet, exec (.encode seq ack flags win payload) s = .next { s with
          log := s.log ++ [⟨.packetHeaderEncoder, .encode seq ack flags win payload,
            ⟨0b00#2, some (.packet packet)⟩⟩] } ∧
        packet.drop 12 = payload) ∧
    ((∃ m, s.params.maxPayload = some m ∧ m < payload.length) →
      exec (.encode seq ack flags win payload) s = .next { s with refused := true })

/-- 40_encoder.md R70: OutOfRange, with no output, exactly when an operand exceeds its width; otherwise
ENCODE succeeds (for a payload that is not refused). -/
def Obligations.OutOfRangeExactlyPastWidths : Prop :=
  ∀ (seq ack flags win : Nat) (payload : Bytes) (s : State),
    (∀ m, s.params.maxPayload = some m → payload.length ≤ m) →
    (exec (.encode seq ack flags win payload) s = .next { s with
        log := s.log ++ [⟨.packetHeaderEncoder, .encode seq ack flags win payload,
          ⟨0b01#2, none⟩⟩] } ↔
      2 ^ 32 ≤ seq ∨ 2 ^ 32 ≤ ack ∨ 2 ^ 16 ≤ flags ∨ 2 ^ 16 ≤ win) ∧
    ((∃ packet, exec (.encode seq ack flags win payload) s = .next { s with
        log := s.log ++ [⟨.packetHeaderEncoder, .encode seq ack flags win payload,
          ⟨0b00#2, some (.packet packet)⟩⟩] }) ↔
      ¬ (2 ^ 32 ≤ seq ∨ 2 ^ 32 ≤ ack ∨ 2 ^ 16 ≤ flags ∨ 2 ^ 16 ≤ win))

/-- 60_exceptions.md R95, item 1: a refusal comes before any error check; the refused request gets no
response even where an operand is out of range (a decision the spec marks as its own: D19). -/
def Obligations.RefusalComesBeforeOutOfRange : Prop :=
  ∀ (seq ack flags win m : Nat) (payload : Bytes) (s : State),
    s.params.maxPayload = some m → m < payload.length →
    (2 ^ 32 ≤ seq ∨ 2 ^ 32 ≤ ack ∨ 2 ^ 16 ≤ flags ∨ 2 ^ 16 ≤ win) →
    exec (.encode seq ack flags win payload) s = .next { s with refused := true }

/-! ## The wire format -/

/-- 20_memory.md R27: the field bits each header byte holds; the defined flag bits lie in byte 9 at
positions 3, 2 and 1; a 16-bit read of bytes 0 and 1 gives seq[31:16], of bytes 2 and 3 seq[15:0] (the spec marks
this rule as derived from R25, R35 and R10). -/
def Obligations.HeaderBytesHoldTheFieldBits : Prop :=
  ∀ (seq ack : BitVec 32) (flags win : BitVec 16) (payload : Bytes) (s : State),
    (∀ m, s.params.maxPayload = some m → payload.length ≤ m) →
    ∃ packet, exec (.encode seq.toNat ack.toNat flags.toNat win.toNat payload) s = .next { s with
        log := s.log ++ [⟨.packetHeaderEncoder,
          .encode seq.toNat ack.toNat flags.toNat win.toNat payload,
          ⟨0b00#2, some (.packet packet)⟩⟩] } ∧
      packet[0]? = some (seq.extractLsb' 24 8) ∧ packet[1]? = some (seq.extractLsb' 16 8) ∧
      packet[2]? = some (seq.extractLsb' 8 8) ∧ packet[3]? = some (seq.extractLsb' 0 8) ∧
      packet[4]? = some (ack.extractLsb' 24 8) ∧ packet[5]? = some (ack.extractLsb' 16 8) ∧
      packet[6]? = some (ack.extractLsb' 8 8) ∧ packet[7]? = some (ack.extractLsb' 0 8) ∧
      packet[8]? = some (flags.extractLsb' 8 8) ∧ packet[9]? = some (flags.extractLsb' 0 8) ∧
      packet[10]? = some (win.extractLsb' 8 8) ∧ packet[11]? = some (win.extractLsb' 0 8) ∧
      (∀ b, packet[9]? = some b → b.getLsbD 3 = flags.getLsbD 3 ∧ b.getLsbD 2 = flags.getLsbD 2 ∧
        b.getLsbD 1 = flags.getLsbD 1) ∧
      memRead packet 0 2 = (seq.extractLsb' 16 16).toNat ∧
      memRead packet 2 2 = (seq.extractLsb' 0 16).toNat

/-- 30_encoding.md R47: read as one 96-bit value H, a header holds seq = H[95:64], ack = H[63:32],
flags = H[31:16] and win = H[15:0], as DECODE_HEADER returns them (the spec marks this rule as
derived from R46 and R25). -/
def Obligations.HeaderIsOne96BitValue : Prop :=
  ∀ (header : Bytes) (s : State), header.length = 12 →
    ∃ (seq ack : BitVec 32) (flags win : BitVec 16),
      exec (.decodeHeader header) s = .next { s with
        log := s.log ++ [⟨.packetHeaderDecoder, .decodeHeader header,
          ⟨0b00#2, some (.header seq ack flags win)⟩⟩] } ∧
      seq.toNat = bits 95 64 (beVal header) ∧ ack.toNat = bits 63 32 (beVal header) ∧
      flags.toNat = bits 31 16 (beVal header) ∧ win.toNat = bits 15 0 (beVal header)

/-- 30_encoding.md R60: ENCODE writes the reserved flag bits as given, DECODE_HEADER returns them as
read, and DECODE_FLAGS ignores them, whatever the other fields, payload and trailing bytes (the spec
marks the first two points as derived from R72). -/
def Obligations.ReservedFlagBitsCarriedAndIgnored : Prop :=
  ∀ (flags : BitVec 16) (s : State),
    (∀ (seq ack : BitVec 32) (win : BitVec 16) (payload : Bytes),
      (∀ m, s.params.maxPayload = some m → payload.length ≤ m) →
      ∃ packet, exec (.encode seq.toNat ack.toNat flags.toNat win.toNat payload) s = .next { s with
          log := s.log ++ [⟨.packetHeaderEncoder,
            .encode seq.toNat ack.toNat flags.toNat win.toNat payload,
            ⟨0b00#2, some (.packet packet)⟩⟩] } ∧
        packet[8]? = some (flags.extractLsb' 8 8) ∧ packet[9]? = some (flags.extractLsb' 0 8)) ∧
    (∀ input : Bytes, input[8]? = some (flags.extractLsb' 8 8) →
      input[9]? = some (flags.extractLsb' 0 8) → 12 ≤ input.length →
      ∃ (seq ack : BitVec 32) (win : BitVec 16), exec (.decodeHeader input) s = .next { s with
        log := s.log ++ [⟨.packetHeaderDecoder, .decodeHeader input,
          ⟨0b00#2, some (.header seq ack flags win)⟩⟩] }) ∧
    (∀ reserved : BitVec 16, ∃ r,
      exec (.decodeFlags flags) s = .next { s with
        log := s.log ++ [⟨.flagBitExtractor, .decodeFlags flags, r⟩] } ∧
      exec (.decodeFlags (flags ^^^ (reserved &&& 0xFFF1#16))) s = .next { s with
        log := s.log ++ [⟨.flagBitExtractor,
          .decodeFlags (flags ^^^ (reserved &&& 0xFFF1#16)), r⟩] })

/-- 40_encoder.md R72: what ENCODE gives for in-range fields and any payload it accepts, DECODE_HEADER
returns as those fields, whatever state it is asked in, and the bytes from offset 12 on are the payload
(the spec marks this rule as derived from R66 and R74). -/
def Obligations.EncodeThenDecodeHeaderRoundTrip : Prop :=
  ∀ (seq ack flags win : Nat) (payload : Bytes) (s s' : State),
    seq < 2 ^ 32 → ack < 2 ^ 32 → flags < 2 ^ 16 → win < 2 ^ 16 →
    (∀ m, s.params.maxPayload = some m → payload.length ≤ m) →
    ∃ (packet : Bytes) (seq' ack' : BitVec 32) (flags' win' : BitVec 16),
      exec (.encode seq ack flags win payload) s = .next { s with
        log := s.log ++ [⟨.packetHeaderEncoder, .encode seq ack flags win payload,
          ⟨0b00#2, some (.packet packet)⟩⟩] } ∧
      exec (.decodeHeader packet) s' = .next { s' with
        log := s'.log ++ [⟨.packetHeaderDecoder, .decodeHeader packet,
          ⟨0b00#2, some (.header seq' ack' flags' win')⟩⟩] } ∧
      seq'.toNat = seq ∧ ack'.toNat = ack ∧ flags'.toNat = flags ∧ win'.toNat = win ∧
      packet.drop 12 = payload

/-- 41_decoder.md R78: DECODE_HEADER undoes ENCODE on every in-range tuple and every payload ENCODE
accepts, and ENCODE with an empty payload undoes DECODE_HEADER on every 12-byte sequence, so that headers
and in-range tuples correspond one to one (the spec marks this rule as derived from R74 and R66). -/
def Obligations.HeadersAndFieldsCorrespondOneToOne : Prop :=
  (∀ (seq ack : BitVec 32) (flags win : BitVec 16) (payload : Bytes) (s : State),
    (∀ m, s.params.maxPayload = some m → payload.length ≤ m) →
    ∃ packet, exec (.encode seq.toNat ack.toNat flags.toNat win.toNat payload) s = .next { s with
        log := s.log ++ [⟨.packetHeaderEncoder,
          .encode seq.toNat ack.toNat flags.toNat win.toNat payload,
          ⟨0b00#2, some (.packet packet)⟩⟩] } ∧
      exec (.decodeHeader packet) s = .next { s with
        log := s.log ++ [⟨.packetHeaderDecoder, .decodeHeader packet,
          ⟨0b00#2, some (.header seq ack flags win)⟩⟩] }) ∧
  (∀ (header : Bytes) (s : State), header.length = 12 →
    ∃ (seq ack : BitVec 32) (flags win : BitVec 16),
      exec (.decodeHeader header) s = .next { s with
        log := s.log ++ [⟨.packetHeaderDecoder, .decodeHeader header,
          ⟨0b00#2, some (.header seq ack flags win)⟩⟩] } ∧
      exec (.encode seq.toNat ack.toNat flags.toNat win.toNat []) s = .next { s with
        log := s.log ++ [⟨.packetHeaderEncoder,
          .encode seq.toNat ack.toNat flags.toNat win.toNat [],
          ⟨0b00#2, some (.packet header)⟩⟩] })

/-! ## DECODE_HEADER -/

/-- 41_decoder.md R74: the selector (clauses that rest on D2 and log entry 7), TruncatedInput below 12
bytes, and else the four fields read most-significant byte first from bytes 0 to 11; no other field of the
state changes. -/
def Obligations.DecodeHeaderFollowsItsRule : Prop :=
  ∀ (input : Bytes) (s : State),
    decode (encode (.decodeHeader input)) = .ok (.decodeHeader input) ∧
    (encode (.decodeHeader input)).op = 0b01#2 ∧
    (input.length < 12 →
      exec (.decodeHeader input) s = .next { s with
        log := s.log ++ [⟨.packetHeaderDecoder, .decodeHeader input, ⟨0b10#2, none⟩⟩] }) ∧
    (12 ≤ input.length →
      ∃ (seq ack : BitVec 32) (flags win : BitVec 16),
        exec (.decodeHeader input) s = .next { s with
          log := s.log ++ [⟨.packetHeaderDecoder, .decodeHeader input,
            ⟨0b00#2, some (.header seq ack flags win)⟩⟩] } ∧
        seq.toNat = beVal (input.take 4) ∧ ack.toNat = beVal ((input.drop 4).take 4) ∧
        flags.toNat = beVal ((input.drop 8).take 2) ∧ win.toNat = beVal ((input.drop 10).take 2))

/-- 41_decoder.md R75: bytes from offset 12 on affect no result, whatever their number or value. -/
def Obligations.DecodeHeaderIgnoresBytesFromOffset12 : Prop :=
  ∀ (header tail : Bytes) (s : State), header.length = 12 →
    ∃ r, exec (.decodeHeader header) s = .next { s with
        log := s.log ++ [⟨.packetHeaderDecoder, .decodeHeader header, r⟩] } ∧
      exec (.decodeHeader (header ++ tail)) s = .next { s with
        log := s.log ++ [⟨.packetHeaderDecoder, .decodeHeader (header ++ tail), r⟩] }

/-- 41_decoder.md R76: TruncatedInput, with no field at all, exactly when N < 12. The second clause,
that DECODE_HEADER succeeds exactly for N >= 12, is the inference R77 that the spec marks as derived. -/
def Obligations.TruncatedInputExactlyBelow12Bytes : Prop :=
  ∀ (input : Bytes) (s : State),
    (exec (.decodeHeader input) s = .next { s with
        log := s.log ++ [⟨.packetHeaderDecoder, .decodeHeader input, ⟨0b10#2, none⟩⟩] } ↔
      input.length < 12) ∧
    ((∃ (seq ack : BitVec 32) (flags win : BitVec 16), exec (.decodeHeader input) s = .next { s with
        log := s.log ++ [⟨.packetHeaderDecoder, .decodeHeader input,
          ⟨0b00#2, some (.header seq ack flags win)⟩⟩] }) ↔
      12 ≤ input.length)

/-! ## DECODE_FLAGS -/

/-- 42_flag_extractor.md R81: the selector (clauses that rest on D2 and log entry 7), and the booleans
of bits 3, 2 and 1 in the order (syn, ack, fin), always with status OK; no other field of the state
changes. -/
def Obligations.DecodeFlagsFollowsItsRule : Prop :=
  ∀ (f : BitVec 16) (s : State),
    decode (encode (.decodeFlags f)) = .ok (.decodeFlags f) ∧
    (encode (.decodeFlags f)).op = 0b10#2 ∧
    exec (.decodeFlags f) s = .next { s with
      log := s.log ++ [⟨.flagBitExtractor, .decodeFlags f,
        ⟨0b00#2, some (.booleans (f.getLsbD 3) (f.getLsbD 2) (f.getLsbD 1))⟩⟩] }

/-- 42_flag_extractor.md R82: any combination of the three booleans can be given at once, each by its
own bit, whatever the other bits are. -/
def Obligations.FlagsAreIndependent : Prop :=
  ∀ (syn ack fin : Bool) (other : BitVec 16) (s : State), ∃ f : BitVec 16,
    f &&& 0xFFF1#16 = other &&& 0xFFF1#16 ∧
    f &&& 0x000E#16 = (if syn then 8#16 else 0#16) + (if ack then 4#16 else 0#16) +
      (if fin then 2#16 else 0#16) ∧
    exec (.decodeFlags f) s = .next { s with
      log := s.log ++ [⟨.flagBitExtractor, .decodeFlags f,
        ⟨0b00#2, some (.booleans syn ack fin)⟩⟩] }

/-- 42_flag_extractor.md R83: a flags value of 0 yields all-false. -/
def Obligations.FlagsOfZeroAreAllFalse : Prop :=
  ∀ s : State, exec (.decodeFlags 0#16) s = .next { s with
    log := s.log ++ [⟨.flagBitExtractor, .decodeFlags 0#16,
      ⟨0b00#2, some (.booleans false false false)⟩⟩] }

/-- 42_flag_extractor.md R84: for every f, DECODE_FLAGS(f) = DECODE_FLAGS(f AND 0x000E) (the spec
marks this rule as derived from R81). -/
def Obligations.DecodeFlagsReadsOnlyDefinedBits : Prop :=
  ∀ (f : BitVec 16) (s : State), ∃ r,
    exec (.decodeFlags f) s = .next { s with
      log := s.log ++ [⟨.flagBitExtractor, .decodeFlags f, r⟩] } ∧
    exec (.decodeFlags (f &&& 0x000E#16)) s = .next { s with
      log := s.log ++ [⟨.flagBitExtractor, .decodeFlags (f &&& 0x000E#16), r⟩] }

/-! ## Requests and their encoding -/

/-- 30_encoding.md R58: the selector alone chooses the operation, over all four of its values, and the
words of the opcode table, and the reserved one, decode as it says. The values are the spec's own
decisions (D2, D3); that a table word leaves the operand lines idle is log entry 7. -/
def Obligations.SelectorChoosesTheOperation : Prop :=
  (∀ r : Req,
    (r.op = 0b00#2 → decode r = .ok (.encode r.encSeq r.encAck r.encFlags r.encWin r.encPay)) ∧
    (r.op = 0b01#2 → decode r = .ok (.decodeHeader r.decIn)) ∧
    (r.op = 0b10#2 → decode r = .ok (.decodeFlags r.fxFlags)) ∧
    (r.op = 0b11#2 → decode r = .error .reservedOp)) ∧
  decodeTableWord 8 0x0 = some (.encode 0 0 0 0 []) ∧
  decodeTableWord 8 0x1 = some (.decodeHeader []) ∧
  decodeTableWord 8 0x2 = some (.decodeFlags 0#16) ∧
  decodeTableWord 8 0x3 = none

/-- Decoding and encoding requests agree in both directions: every operation's request decodes to it,
and every well-formed request is the request of the operation it decodes to. The idle lines of the
shared port are the model's choice (log entry 7). -/
def Obligations.RequestDecodeAndEncodeAgree : Prop :=
  (∀ i : Instr, decode (encode i) = .ok i ∧ (encode i).wf = true) ∧
  (∀ r : Req, r.wf = true → ∃ i, decode r = .ok i ∧ encode i = r)

/-- 30_encoding.md R59: `op = 0b11` has no meaning, and the step that takes it refuses it: the mark is
set, and nothing is logged (decisions the spec marks as its own: D3, D24; log entry 5). -/
def Obligations.ReservedSelectorIsRefused : Prop :=
  ∀ (s s' : State) (p : Presented), s.accept = some (p, s') → p.req.op = 0b11#2 →
    verdictOfReq s.params p.req = .refuse .reservedOp ∧
    step s = .next { s' with refused := true }

/-- 60_exceptions.md R93: a request is refused in exactly two cases; a refusal sets the mark and adds
no response, and any other request gets one (decisions the spec marks as its own: D3, D6; log
entry 5). -/
def Obligations.RefusalsAreExactlyTheTwoCases : Prop :=
  ∀ (r : Req) (s : State),
    (r.op = 0b11#2 → verdictOfReq s.params r = .refuse .reservedOp ∧
      serve r s = .next { s with refused := true }) ∧
    (∀ m, r.op = 0b00#2 → s.params.maxPayload = some m → m < r.encPay.length →
      verdictOfReq s.params r = .refuse .payloadBeyondMaxPayload ∧
      serve r s = .next { s with refused := true }) ∧
    (r.op ≠ 0b11#2 → (r.op = 0b00#2 → ∀ m, s.params.maxPayload = some m → r.encPay.length ≤ m) →
      ∃ (u : UnitName) (i : Instr) (rsp : Response), decode r = .ok i ∧ unitOfOp r.op = some u ∧
        verdictOfReq s.params r = .respond rsp ∧
        serve r s = .next { s with log := s.log ++ [⟨u, i, rsp⟩] })

/-- 30_encoding.md R61: no operation ever gives status 0b11; and an operation either is refused or is
answered with a status and result its unit may give, an error status with no result (the codes are a
decision the spec marks as its own: D4, D20). -/
def Obligations.ResponsesNeverHaveStatus3 : Prop :=
  ∀ (i : Instr) (s : State),
    exec i s = .next { s with refused := true } ∨
    ∃ r : Response, exec i s = .next { s with log := s.log ++ [⟨i.unit, i, r⟩] } ∧
      r.wfFor i.unit = true ∧ r.status ≠ 0b11#2 ∧ (r.status ≠ 0b00#2 → r.result = none)

/-- The frame of ENCODE, DECODE_HEADER and DECODE_FLAGS (20_memory.md R32, 10_state.md R22): the requests
in flight, the turns and the parameters stay; one entry that records the operation with its operands unchanged
is appended and the mark stays; or, for ENCODE alone, the mark is set and the log stays. -/
def Obligations.OperationsChangeOnlyLogOrMark : Prop :=
  ∀ (i : Instr) (s t : State), exec i s = .next t →
    t.pending = s.pending ∧ t.turns = s.turns ∧ t.params = s.params ∧
    ((∃ r, t.log = s.log ++ [⟨i.unit, i, r⟩] ∧ t.refused = s.refused) ∨
      (i.unit = .packetHeaderEncoder ∧ t.log = s.log ∧ t.refused = true))

/-- 20_memory.md R33: requests with equal operands get equal responses, whenever they are issued (under
one MAX_PAYLOAD; the spec marks this rule as derived from R14 and R15). -/
def Obligations.EqualOperandsGetEqualResponses : Prop :=
  ∀ (i : Instr) (s₁ s₂ : State), s₁.params.maxPayload = s₂.params.maxPayload →
    (∃ r, exec i s₁ = .next { s₁ with log := s₁.log ++ [⟨i.unit, i, r⟩] } ∧
      exec i s₂ = .next { s₂ with log := s₂.log ++ [⟨i.unit, i, r⟩] }) ∨
    (exec i s₁ = .next { s₁ with refused := true } ∧ exec i s₂ = .next { s₂ with refused := true })

/-- 60_exceptions.md R97: after an error every request is served as if the error had never happened, and
a retry with the same operands gives the same error again (the spec marks this rule as derived from
R15). -/
def Obligations.ErrorsChangeNoLaterResponse : Prop :=
  ∀ (i j : Instr) (s t : State) (status : BitVec 2),
    exec i s = .next t → t.log = s.log ++ [⟨i.unit, i, ⟨status, none⟩⟩] →
    exec i t = .next { t with log := t.log ++ [⟨i.unit, i, ⟨status, none⟩⟩] } ∧
    ((∃ r, exec j s = .next { s with log := s.log ++ [⟨j.unit, j, r⟩] } ∧
        exec j t = .next { t with log := t.log ++ [⟨j.unit, j, r⟩] }) ∨
      (exec j s = .next { s with refused := true } ∧ exec j t = .next { t with refused := true }))

/-! ## Steps and runs -/

/-- A step takes one request in flight and is `exec` of the operation it decodes to, in the state without it
(10_state.md R22). `pending` and `turns` are the model's own (log entries 1 and 2); that the request taken
is the oldest of its lane is the model's choice (log entry 18). -/
def Obligations.StepRunsTheDecodedOperation : Prop :=
  ∀ (s s' : State) (p : Presented) (i : Instr),
    s.accept = some (p, s') → decode p.req = .ok i →
    step s = exec i s' ∧
    ∃ older newer, s.pending = older ++ p :: newer ∧ (∀ q ∈ older, q.lane ≠ p.lane) ∧
      s' = { s with pending := older ++ newer, turns := s.turns.tail }

/-- With no request in flight a step changes nothing: the model's choice (log entry 6). -/
def Obligations.IdleStepChangesNothing : Prop :=
  ∀ s : State, s.pending = [] → step s = .next s

/-- The request of a table word is taken by the very next step, in the state it was placed in (log
entry 10). -/
def Obligations.TableWordRunsNext : Prop :=
  ∀ (s : State) (nbits w : Nat),
    step (s.withFetchWord nbits w) = serve (reqOfTableWord nbits w) s

/-- 60_exceptions.md R98: nothing is fatal: every step answers a next state, with one request fewer in
flight while there is one, so the block can take the next. That requests in flight stand in `pending`
is log entry 1, that a refusal is a next state log entry 5 (DEDUCED), that an idle step changes nothing log
entry 6. -/
def Obligations.NoConditionIsFatal : Prop :=
  ∀ s : State, ∃ t, step s = .next t ∧ t.pending.length = s.pending.length - 1

/-- 10_state.md R24: after reset no request is in flight, the log is empty and nothing is refused; the
parameter MAX_PAYLOAD is at its reference value, unbounded (00_scope.md R8). These values are
decisions the spec marks as its own (D10, D6); `pending` is the model's field (log entry 1). -/
def Obligations.ResetLeavesNothing : Prop :=
  State.reset.pending = [] ∧ State.reset.log = [] ∧ State.reset.refused = false ∧
  State.reset.params.maxPayload = none

/-- 70_reset_and_hazards.md R107: requests in flight at reset are discarded and get no response,
however long the run, and a request issued after reset is served by the rules alone (a decision the
spec marks as its own: D10; log entry 11). -/
def Obligations.ResetDiscardsRequestsInFlight : Prop :=
  ∀ (s t : State) (n : Nat) (p : Presented),
    (Sys2Proof.core.run n s.hostReset = .next t → t.shows = ([], false)) ∧
    (Sys2Proof.core.run (n + 1) (s.hostReset.present p) = .next t →
      t.shows = ((aloneEntry s.params p.req).toList, (aloneEntry s.params p.req).isNone))

/-- The invariant: the parameters are legal (00_scope.md R8), and every entry of the log stands under its
unit with the response its request gets presented alone (20_memory.md R38). -/
def Obligations.StepKeepsLogSound : Prop :=
  ∀ s t : State, s.inv → step s = .next t → t.inv

/-- The invariant holds at reset. -/
def Obligations.ResetMeetsTheInvariant : Prop := State.reset.inv

/-- A run only extends: the log keeps all it has, the mark is never cleared (10_state.md R22), and
the parameters stay. -/
def Obligations.RunsOnlyExtendTheLog : Prop :=
  ∀ (n : Nat) (s t : State), Sys2Proof.core.run n s = .next t →
    (∃ es, t.log = s.log ++ es) ∧ (s.refused = true → t.refused = true) ∧ t.params = s.params

/-- No step reads the log or the mark to compute a response (10_state.md R22), and none depends on them
(10_state.md R15): from states that differ in these alone, a run adds the same entries. -/
def Obligations.RunsReadNeitherLogNorMark : Prop :=
  ∀ (n : Nat) (s : State) (log : List Entry) (mark : Bool), ∃ (t : State) (es : List Entry) (b : Bool),
    Sys2Proof.core.run n s = .next { t with log := s.log ++ es, refused := s.refused || b } ∧
    Sys2Proof.core.run n { s with log := log, refused := mark } =
      .next { t with log := log ++ es, refused := mark || b }

/-- 00_scope.md R9: LATENCY is not observable, and nothing depends on it (a decision the spec marks as
its own: D13). -/
def Obligations.LatencyIsUnobservable : Prop :=
  ∀ (n latency : Nat) (s t : State), Sys2Proof.core.run n s = .next t →
    Sys2Proof.core.run n { s with params := { s.params with latency := latency } } =
      .next { t with params := { t.params with latency := latency } }

/-- 20_memory.md R38: requests do not interact. Whatever the order of the lanes, a run that is long
enough answers every request in flight, with the response it would get alone, and supports claims (R113)
exactly if it did before and each of them is answered alone (the spec marks this rule as derived from R32 and R33). -/
def Obligations.RequestsDoNotInteract : Prop :=
  ∀ (n : Nat) (s : State), s.pending.length ≤ n → ∃ t, Sys2Proof.core.run n s = .next t ∧
    t.ended ∧
    (∃ given, t.log = s.log ++ given ∧ given.Perm s.owed) ∧
    (t.supportsClaims ↔
      s.supportsClaims ∧ ∀ p ∈ s.pending, ∃ r, verdictOfReq s.params p.req = .respond r)

/-- Each unit (here: one instance of it) returns responses in the order it accepts requests (20_memory.md
R39, first sentence): at every point of a run, the unit's responses so far, followed by those it still
owes in the order presented, are the same list (a decision the spec marks as its own: D27). That an
instance accepts requests in the order presented is the model's choice (log entry 18). -/
def Obligations.UnitsAnswerInTheOrderTheyAccept : Prop :=
  ∀ (n k : Nat) (u : UnitName) (s t : State), s.singleInstance u k →
    Sys2Proof.core.run n s = .next t →
    ofUnit u t.log ++ ofUnit u t.owed = ofUnit u s.log ++ ofUnit u s.owed

/-- Responses of different units or instances stand in no order (20_memory.md R39, second sentence): any
request that is the oldest of its lane is the one some turn takes next (D27; `turns` is the model's
field, log entry 2). -/
def Obligations.AnyLaneMayAnswerNext : Prop :=
  ∀ (s : State) (older newer : List Presented) (p : Presented),
    s.pending = older ++ p :: newer → (∀ q ∈ older, q.lane ≠ p.lane) →
    ∃ turns, step { s with turns := turns } =
      serve p.req { s with pending := older ++ newer, turns := s.turns }

/-! ## Ports and written requests -/

/-- 40_encoder.md R73: an encoder whose ports are 32, 32, 16 and 16 bits wide never gives OutOfRange:
where the payload is not refused its status is OK, with the packet and its length (D5). -/
def Obligations.NativeEncoderPortsNeverGiveOutOfRange : Prop :=
  ∀ (cfg : Config) (levels : EncoderOut) (p : NativeEncoderIn), p.encLen = p.encPay.length →
    (∀ m, cfg.maxPayload = some m → p.encLen ≤ m) →
    p.toInstr.fitsNativePorts = true ∧
    ∃ out, encoderUnit cfg levels p = some out ∧ out.encStatus = 0b00#2 ∧
      out.encPkt = be 4 p.encSeq.toNat ++ be 4 p.encAck.toNat ++ be 2 p.encFlags.toNat ++
        be 2 p.encWin.toNat ++ p.encPay ∧
      out.encPktLen = 12 + p.encLen

/-- 41_decoder.md R80: the first min(N, 12) bytes with N, or with the single bit N >= 12, give the
responses of R74 (D22). -/
def Obligations.DecoderPortsGiveTheFullResponse : Prop :=
  ∀ (input : Bytes) (s : State), ∃ r,
    exec (.decodeHeader input) s = .next { s with
      log := s.log ++ [⟨.packetHeaderDecoder, .decodeHeader input, r⟩] } ∧
    decoderPortResponse (DecoderIn.ofInput input) = r ∧
    decoderBitResponse (DecoderBitIn.ofInput input) = r

/-- Each unit's own ports show the response the shared request port gets (30_encoding.md R55). An
encoder of any port widths serves the request whose operands are its ports' values: it is refused past a
finite MAX_PAYLOAD, it performs the check of R70 where its ports are wide enough to need it (40_encoder.md
R73), and else it gives the packet and its length. A result port that has no result to show keeps the level
it is given, which nothing constrains (R54; log entry 12). -/
def Obligations.UnitPortsShowTheSharedPortsResponse : Prop :=
  (∀ (a b c d : Nat) (cfg : Config) (levels : EncoderOut) (p : EncoderIn a b c d),
    p.encLen = p.encPay.length →
    (∀ m, cfg.maxPayload = some m → m < p.encLen →
      verdictOfReq cfg (encode (.encode p.encSeq.toNat p.encAck.toNat p.encFlags.toNat
        p.encWin.toNat p.encPay)) = .refuse .payloadBeyondMaxPayload ∧
      encoderUnit cfg levels p = none) ∧
    ((∀ m, cfg.maxPayload = some m → p.encLen ≤ m) →
      (2 ^ 32 ≤ p.encSeq.toNat ∨ 2 ^ 32 ≤ p.encAck.toNat ∨ 2 ^ 16 ≤ p.encFlags.toNat ∨
          2 ^ 16 ≤ p.encWin.toNat →
        verdictOfReq cfg (encode (.encode p.encSeq.toNat p.encAck.toNat p.encFlags.toNat
          p.encWin.toNat p.encPay)) = .respond ⟨0b01#2, none⟩ ∧
        encoderUnit cfg levels p = some { levels with encStatus := 0b01#2 }) ∧
      (p.encSeq.toNat < 2 ^ 32 → p.encAck.toNat < 2 ^ 32 → p.encFlags.toNat < 2 ^ 16 →
          p.encWin.toNat < 2 ^ 16 →
        verdictOfReq cfg (encode (.encode p.encSeq.toNat p.encAck.toNat p.encFlags.toNat
          p.encWin.toNat p.encPay)) = .respond ⟨0b00#2, some (.packet
            (be 4 p.encSeq.toNat ++ be 4 p.encAck.toNat ++ be 2 p.encFlags.toNat ++
              be 2 p.encWin.toNat ++ p.encPay))⟩ ∧
        encoderUnit cfg levels p = some ⟨0b00#2,
          be 4 p.encSeq.toNat ++ be 4 p.encAck.toNat ++ be 2 p.encFlags.toNat ++
            be 2 p.encWin.toNat ++ p.encPay, 12 + p.encLen⟩))) ∧
  (∀ (cfg : Config) (levels : DecoderOut) (input : Bytes),
    (verdictOfReq cfg (encode (.decodeHeader input)) = .respond ⟨0b10#2, none⟩ ∧
      decoderUnit levels ⟨input.length, input.take 12⟩ = { levels with decStatus := 0b10#2 }) ∨
    ∃ (seq ack : BitVec 32) (flags win : BitVec 16),
      verdictOfReq cfg (encode (.decodeHeader input)) =
        .respond ⟨0b00#2, some (.header seq ack flags win)⟩ ∧
      decoderUnit levels ⟨input.length, input.take 12⟩ = ⟨0b00#2, seq, ack, flags, win⟩) ∧
  (∀ (cfg : Config) (f : BitVec 16), ∃ syn ack fin : Bool,
    verdictOfReq cfg (encode (.decodeFlags f)) = .respond ⟨0b00#2, some (.booleans syn ack fin)⟩ ∧
    flagUnit f = ⟨BitVec.ofBool syn, BitVec.ofBool ack, BitVec.ofBool fin⟩)

/-- 30_encoding.md R65: each pseudo-request expands to exactly one ENCODE, for every operand as written
that has a value and for every value, in range or not; and it gives the source's reference shapes: 1472
bytes with flags 0, and 12 bytes with flags 4. DATA_PKT does not check its payload's length (D16). -/
def Obligations.PseudoRequestsExpandToOneEncode : Prop :=
  (∀ (seqForm ackForm winForm : NumForm) (payloadForm : BytesForm) (seq ack win : Nat)
      (payload : Bytes) (responses : List (Option Response)),
    seqForm.value responses = some seq → ackForm.value responses = some ack →
    winForm.value responses = some win →
    (RequestForm.ackPkt seqForm ackForm winForm).expand responses = some (.encode seq ack 4 win []) ∧
    (payloadForm.value responses = some payload →
      (RequestForm.dataPkt seqForm ackForm winForm payloadForm).expand responses =
        some (.encode seq ack 0 win payload))) ∧
  (∀ (seq ack win : Nat) (payload : Bytes) (responses : List (Option Response)),
    (RequestForm.dataPkt (.literal seq) (.literal ack) (.literal win) (.literal payload)).expand
      responses = some (.encode seq ack 0 win payload) ∧
    (RequestForm.ackPkt (.literal seq) (.literal ack) (.literal win)).expand responses =
      some (.encode seq ack 4 win [])) ∧
  (∀ (seq ack : BitVec 32) (win : BitVec 16) (payload : Bytes) (s : State),
    ((∀ m, s.params.maxPayload = some m → payload.length ≤ m) → payload.length = 1460 →
      ∃ packet, exec (dataPkt seq.toNat ack.toNat win.toNat payload) s = .next { s with
          log := s.log ++ [⟨.packetHeaderEncoder, .encode seq.toNat ack.toNat 0 win.toNat payload,
            ⟨0b00#2, some (.packet packet)⟩⟩] } ∧
        packet.length = 1472 ∧ packet[8]? = some 0x00#8 ∧ packet[9]? = some 0x00#8) ∧
    ∃ packet, exec (ackPkt seq.toNat ack.toNat win.toNat) s = .next { s with
        log := s.log ++ [⟨.packetHeaderEncoder, .encode seq.toNat ack.toNat 4 win.toNat [],
          ⟨0b00#2, some (.packet packet)⟩⟩] } ∧
      packet.length = 12 ∧ packet[8]? = some 0x00#8 ∧ packet[9]? = some 0x04#8)

/-- `$k.seq`, `$k.ack`, `$k.flags` and `$k.win` of an ENCODE's result are the encoded operands
(30_encoding.md R64, by 40_encoder.md R72). -/
def Obligations.FieldsOfAnEncodedResultAreTheOperands : Prop :=
  ∀ (seq ack flags win : Nat) (payload packet : Bytes) (s : State),
    seq < 2 ^ 32 → ack < 2 ^ 32 → flags < 2 ^ 16 → win < 2 ^ 16 →
    exec (.encode seq ack flags win payload) s = .next { s with
      log := s.log ++ [⟨.packetHeaderEncoder, .encode seq ack flags win payload,
        ⟨0b00#2, some (.packet packet)⟩⟩] } →
    fieldOf (.packet packet) .seq = some seq ∧ fieldOf (.packet packet) .ack = some ack ∧
    fieldOf (.packet packet) .flags = some flags ∧ fieldOf (.packet packet) .win = some win

/-- 30_encoding.md R64: the value of each operand as written: a literal is itself, `2**k` is 2^k, joined
flag names set exactly their own bits (FIN 1, ACK 2, SYN 3: R50), `b"c"*n` and `bytes(n, x)` are n copies end
to end, `$k.field` is a field that request k, a DECODE_HEADER, returned, or that the host reads from bytes 0
to 11 of what request k, an ENCODE, gave, and `$k` is that packet. R64 repeats one character: that a
literal of any length is repeated whole is log entry 15 (PRESUMED). -/
def Obligations.WrittenOperandsHaveTheirValues : Prop :=
  ∀ responses : List (Option Response),
    (∀ n, (NumForm.literal n).value responses = some n ∧
      (NumForm.power n).value responses = some (2 ^ n)) ∧
    (∀ names : List FlagName, ∃ v, (NumForm.flags names).value responses = some v ∧
      ∀ j, v.testBit j = true ↔
        (j = 1 ∧ FlagName.fin ∈ names) ∨ (j = 2 ∧ FlagName.ack ∈ names) ∨
          (j = 3 ∧ FlagName.syn ∈ names)) ∧
    (∀ bytes, (BytesForm.literal bytes).value responses = some bytes) ∧
    (∀ n bytes, ∃ b, (BytesForm.copies n bytes).value responses = some b ∧
      b.length = n * bytes.length ∧ ∀ i < b.length, b[i]? = bytes[i % bytes.length]?) ∧
    (∀ (k : Nat) (status : BitVec 2) (seq ack : BitVec 32) (flags win : BitVec 16),
      responses[k]? = some (some ⟨status, some (.header seq ack flags win)⟩) →
      (NumForm.field (k + 1) .seq).value responses = some seq.toNat ∧
      (NumForm.field (k + 1) .ack).value responses = some ack.toNat ∧
      (NumForm.field (k + 1) .flags).value responses = some flags.toNat ∧
      (NumForm.field (k + 1) .win).value responses = some win.toNat) ∧
    (∀ (k : Nat) (status : BitVec 2) (packet : Bytes),
      responses[k]? = some (some ⟨status, some (.packet packet)⟩) →
      (BytesForm.result (k + 1)).value responses = some packet ∧
      (NumForm.field (k + 1) .seq).value responses = some (beVal (packet.take 4)) ∧
      (NumForm.field (k + 1) .ack).value responses = some (beVal ((packet.drop 4).take 4)) ∧
      (NumForm.field (k + 1) .flags).value responses = some (beVal ((packet.drop 8).take 2)) ∧
      (NumForm.field (k + 1) .win).value responses = some (beVal ((packet.drop 10).take 2)))
end

