-- ==== Sys2Proof/Laws/State.lean ====
section
/-! SUPPORT. What each update of the state leaves in each field. -/

namespace Sys2Proof.Machine

variable (s : State) (i : Instr) (r : Response) (x : RefusalReason) (p : Presented)

@[simp] theorem respond_pending : (s.respond i r).pending = s.pending := rfl
@[simp] theorem respond_turns : (s.respond i r).turns = s.turns := rfl
@[simp] theorem respond_log : (s.respond i r).log = s.log ++ [⟨i.unit, i, r⟩] := rfl
@[simp] theorem respond_refused : (s.respond i r).refused = s.refused := rfl
@[simp] theorem respond_params : (s.respond i r).params = s.params := rfl

@[simp] theorem refuse_pending : (s.refuse x).pending = s.pending := rfl
@[simp] theorem refuse_turns : (s.refuse x).turns = s.turns := rfl
@[simp] theorem refuse_log : (s.refuse x).log = s.log := rfl
@[simp] theorem refuse_refused : (s.refuse x).refused = true := rfl
@[simp] theorem refuse_params : (s.refuse x).params = s.params := rfl

@[simp] theorem settle_respond : s.settle i (.respond r) = s.respond i r := rfl
@[simp] theorem settle_refuse : s.settle i (.refuse x) = s.refuse x := rfl

@[simp] theorem present_pending : (s.present p).pending = s.pending ++ [p] := rfl
@[simp] theorem present_turns : (s.present p).turns = s.turns := rfl
@[simp] theorem present_log : (s.present p).log = s.log := rfl
@[simp] theorem present_refused : (s.present p).refused = s.refused := rfl
@[simp] theorem present_params : (s.present p).params = s.params := rfl

@[simp] theorem presentNext_pending : (s.presentNext p).pending = p :: s.pending := rfl
@[simp] theorem presentNext_turns : (s.presentNext p).turns = p.lane :: s.turns := rfl
@[simp] theorem presentNext_log : (s.presentNext p).log = s.log := rfl
@[simp] theorem presentNext_refused : (s.presentNext p).refused = s.refused := rfl
@[simp] theorem presentNext_params : (s.presentNext p).params = s.params := rfl

end Sys2Proof.Machine
end

