-- ==== Sys2Proof/Laws/Accept.lean ====
section
/-! SUPPORT. Which request a step takes: what `takeLane`, `takeNext` and `accept` can answer. -/

namespace Sys2Proof.Machine

/-- A lane gives its oldest request, and everything else stays in order. -/
theorem takeLane_some {l : Lane} {ps rest : List Presented} {p : Presented}
    (h : takeLane l ps = some (p, rest)) :
    ∃ older newer, ps = older ++ p :: newer ∧ rest = older ++ newer ∧ p.lane = l ∧
      ∀ q ∈ older, q.lane ≠ l := by
  induction ps generalizing rest with
  | nil => simp [takeLane] at h
  | cons q qs ih =>
    by_cases hq : q.lane = l
    · simp only [takeLane, hq, if_true, Option.some.injEq, Prod.mk.injEq] at h
      obtain ⟨rfl, rfl⟩ := h
      exact ⟨[], qs, rfl, rfl, hq, by simp⟩
    · simp only [takeLane, hq, if_false, Option.map_eq_some_iff, Prod.mk.injEq] at h
      obtain ⟨⟨p', rest'⟩, hrec, rfl, rfl⟩ := h
      obtain ⟨older, newer, rfl, rfl, hl, hne⟩ := ih hrec
      exact ⟨q :: older, newer, rfl, rfl, hl, by simpa [hq] using hne⟩

/-- The request at the front of its lane is the one the lane gives. -/
theorem takeLane_of_oldest (p : Presented) (older newer : List Presented)
    (h : ∀ q ∈ older, q.lane ≠ p.lane) :
    takeLane p.lane (older ++ p :: newer) = some (p, older ++ newer) := by
  induction older with
  | nil => simp [takeLane]
  | cons q qs ih =>
    have hq : q.lane ≠ p.lane := h q (by simp)
    simp [takeLane, hq, ih fun r hr => h r (by simp [hr])]

/-- The request taken is the oldest of its own lane, and everything else stays in order. -/
theorem takeNext_some {turns : List Lane} {ps rest : List Presented} {p : Presented}
    (h : takeNext turns ps = some (p, rest)) :
    ∃ older newer, ps = older ++ p :: newer ∧ rest = older ++ newer ∧
      ∀ q ∈ older, q.lane ≠ p.lane := by
  have oldest : takeOldest ps = some (p, rest) → ∃ older newer, ps = older ++ p :: newer ∧
      rest = older ++ newer ∧ ∀ q ∈ older, q.lane ≠ p.lane := by
    intro ho
    cases ps with
    | nil => simp [takeOldest] at ho
    | cons q qs =>
      simp only [takeOldest, Option.some.injEq, Prod.mk.injEq] at ho
      obtain ⟨rfl, rfl⟩ := ho
      exact ⟨[], qs, rfl, rfl, by simp⟩
  cases turns with
  | nil => exact oldest h
  | cons l ls =>
    simp only [takeNext, Option.or_eq_some_iff] at h
    rcases h with h | ⟨-, h⟩
    · obtain ⟨older, newer, rfl, rfl, rfl, hne⟩ := takeLane_some h
      exact ⟨older, newer, rfl, rfl, hne⟩
    · exact oldest h

/-- A request is taken whenever one is in flight. -/
theorem takeNext_none {turns : List Lane} {ps : List Presented} :
    takeNext turns ps = none ↔ ps = [] := by
  cases ps with
  | nil => cases turns <;> simp [takeNext, takeLane, takeOldest]
  | cons q qs => cases turns <;> simp [takeNext, takeOldest]

theorem accept_none {s : State} : s.accept = none ↔ s.pending = [] := by
  rw [← takeNext_none (turns := s.turns)]
  unfold State.accept
  split <;> simp_all

/-- Everything accepting a request can do. -/
theorem accept_some {s s' : State} {p : Presented} (h : s.accept = some (p, s')) :
    ∃ older newer, s.pending = older ++ p :: newer ∧ (∀ q ∈ older, q.lane ≠ p.lane) ∧
      s' = { s with pending := older ++ newer, turns := s.turns.tail } := by
  unfold State.accept at h
  split at h
  · cases h
  · rename_i p' rest hn
    simp only [Option.some.injEq, Prod.mk.injEq] at h
    obtain ⟨rfl, rfl⟩ := h
    obtain ⟨older, newer, hp, rfl, hne⟩ := takeNext_some hn
    exact ⟨older, newer, hp, hne, rfl⟩

end Sys2Proof.Machine
end

