-- ==== Sys2Proof/Laws/Bytes.lean ====
section
/-! SUPPORT. Byte order and buffers: what `be`, `beVal`, `copyInto` and the packet of ENCODE are. -/

namespace Sys2Proof.Machine

@[simp] theorem be_length (n v : Nat) : (be n v).length = n := by
  induction n with
  | zero => rfl
  | succ n ih => simp [be, ih]

theorem beVal_lt (b : Bytes) : beVal b < 256 ^ b.length := by
  induction b with
  | nil => simp [beVal]
  | cons x xs ih =>
    have hx : x.toNat < 256 := x.isLt
    have h : (x.toNat + 1) * 256 ^ xs.length ≤ 256 * 256 ^ xs.length :=
      Nat.mul_le_mul_right _ hx
    simp only [beVal, List.length_cons, Nat.pow_succ]
    rw [Nat.add_mul] at h
    omega

theorem beVal_append (a b : Bytes) : beVal (a ++ b) = beVal a * 256 ^ b.length + beVal b := by
  induction a with
  | nil => simp [beVal]
  | cons x xs ih => simp [beVal, ih, Nat.pow_add]; ring

/-- The byte of weight `256^n` in a value. -/
theorem bits_byte (n v : Nat) : bits (8 * n + 7) (8 * n) v = v / 256 ^ n % 256 := by
  have h : 8 * n + 7 - 8 * n + 1 = 8 := by omega
  simp only [bits, h, Nat.pow_mul]
  norm_num

theorem beVal_be (n v : Nat) : beVal (be n v) = v % 256 ^ n := by
  induction n with
  | zero => simp [be, beVal, Nat.mod_one]
  | succ n ih =>
    have h : v % 256 ^ (n + 1) = v % 256 ^ n + 256 ^ n * (v / 256 ^ n % 256) := by
      rw [Nat.pow_succ, Nat.mod_mul]
    simp only [be, beVal, be_length, ih, bits_byte, BitVec.toNat_ofNat, h]
    norm_num
    ring

theorem be_mod (n v : Nat) : be n (v % 256 ^ n) = be n v := by
  suffices h : ∀ m, n ≤ m → be n (v % 256 ^ m) = be n v from h n le_rfl
  intro m hm
  induction n with
  | zero => rfl
  | succ n ih =>
    have hb : v % 256 ^ m / 256 ^ n % 256 = v / 256 ^ n % 256 := by
      obtain ⟨k, rfl⟩ : ∃ k, m = n + (1 + k) := ⟨m - n - 1, by omega⟩
      rw [Nat.pow_add, Nat.mod_mul_right_div_self, Nat.pow_add, Nat.mod_mod_of_dvd]
      simp
    simp only [be, bits_byte, hb, ih (by omega)]

theorem be_beVal (b : Bytes) : be b.length (beVal b) = b := by
  induction b with
  | nil => rfl
  | cons x xs ih =>
    have hlt := beVal_lt xs
    have hpos : 0 < 256 ^ xs.length := Nat.pow_pos (by norm_num)
    have hhead : (x.toNat * 256 ^ xs.length + beVal xs) / 256 ^ xs.length % 256 = x.toNat := by
      rw [Nat.mul_comm, Nat.mul_add_div hpos, Nat.div_eq_of_lt hlt]
      simpa using x.isLt
    have htail : be xs.length (x.toNat * 256 ^ xs.length + beVal xs) = xs := by
      rw [← be_mod, Nat.mul_comm, Nat.mul_add_mod, Nat.mod_eq_of_lt hlt, ih]
    simp only [List.length_cons, be, beVal, bits_byte, hhead, htail]
    simp

/-- Writing at the end of a buffer's first part replaces the bytes that follow it. -/
theorem copyInto_append (pre rest src : Bytes) (off : Nat) (h : pre.length = off) :
    copyInto (pre ++ rest) off src = pre ++ (src ++ rest.drop src.length) := by
  subst h
  simp [copyInto]

@[simp] theorem newBuffer_length (n : Nat) : (newBuffer n).length = n := by simp [newBuffer]

/-- The packet ENCODE builds is the concatenation R66 says it is, whatever the new buffer held. -/
theorem encodePacket_eq (seq ack flags win : Nat) (payload : Bytes) :
    encodePacket seq ack flags win payload =
      be 4 seq ++ (be 4 ack ++ (be 2 flags ++ (be 2 win ++ payload))) := by
  generalize hb : newBuffer (12 + payload.length) = b
  have hlen : b.length = 12 + payload.length := by rw [← hb]; simp
  have h0 := copyInto_append [] b (be 4 seq) 0 rfl
  have h1 := copyInto_append (be 4 seq) (b.drop 4) (be 4 ack) 4 (by simp)
  have h2 := copyInto_append (be 4 seq ++ be 4 ack) (b.drop 8) (be 2 flags) 8 (by simp)
  have h3 := copyInto_append (be 4 seq ++ be 4 ack ++ be 2 flags) (b.drop 10) (be 2 win) 10 (by simp)
  have h4 := copyInto_append (be 4 seq ++ be 4 ack ++ be 2 flags ++ be 2 win) (b.drop 12) payload 12
    (by simp)
  have hend : (b.drop 12).drop payload.length = [] := by simp [hlen]
  simp only [be_length, List.drop_drop, List.nil_append, List.append_assoc,
    Nat.reduceAdd] at h0 h1 h2 h3 h4 hend
  simp only [encodePacket, memWrite, seqOffset, ackOffset, flagsOffset, winOffset, headerBytes,
    hb, h0, h1, h2, h3, h4, hend, List.append_nil]

/-- What a read of one field finds in bytes laid out before it, in it and behind it. -/
theorem memRead_append (pre mid rest : Bytes) (off n : Nat) (hp : pre.length = off)
    (hm : mid.length = n) : memRead (pre ++ (mid ++ rest)) off n = beVal mid := by
  subst hp hm
  simp [memRead]

end Sys2Proof.Machine
end

