-- ==== Sys2Proof/Laws/PerInstr.lean ====
section
/-! SUPPORT. What holds of every operation as syntax, one lemma per constructor. -/

namespace Sys2Proof.Laws.ReqForm

/-- The request that presents an operation is well formed, carries its selector, and goes to its unit. -/
def Statement (i : Instr) : Prop :=
  (encode i).wf = true ∧ (encode i).op = i.op ∧ unitOfOp (encode i).op = some i.unit

theorem encode (seq ack flags win : Nat) (payload : Bytes) :
    Statement (.encode seq ack flags win payload) := ⟨rfl, rfl, rfl⟩

theorem decodeHeader (input : Bytes) : Statement (.decodeHeader input) := ⟨rfl, rfl, rfl⟩

theorem decodeFlags (flags : BitVec 16) : Statement (.decodeFlags flags) := ⟨rfl, rfl, rfl⟩

end Sys2Proof.Laws.ReqForm
end

