-- ==== Sys2Proof/Laws/Service.lean ====
section
/-! SUPPORT. What an operation, a served request and a step can do. -/

namespace Sys2Proof.Machine

/-- An operation does what its verdict says, and nothing else. -/
theorem exec_eq_settle (i : Instr) (s : State) :
    exec i s = .next (s.settle i (verdictOf s.params i)) := by
  cases i <;> rfl

/-- Serving a request appends the entry it gets alone, or sets the mark. -/
theorem serve_eq (r : Req) (s : State) :
    serve r s = .next (match aloneEntry s.params r with
      | some e => { s with log := s.log ++ [e] }
      | none => { s with refused := true }) := by
  unfold serve aloneEntry
  cases decode r with
  | error _ => rfl
  | ok i =>
    dsimp only
    rw [exec_eq_settle]
    cases verdictOf s.params i <;> rfl

/-- Everything a step can do: nothing where no request is in flight, else serve the one accepted. -/
theorem step_cases {s t : State} (h : step s = .next t) :
    (s.pending = [] ∧ t = s) ∨
    ∃ p older newer, s.pending = older ++ p :: newer ∧ (∀ q ∈ older, q.lane ≠ p.lane) ∧
      ((∃ e, aloneEntry s.params p.req = some e ∧
          t = { s with pending := older ++ newer, turns := s.turns.tail, log := s.log ++ [e] }) ∨
        (aloneEntry s.params p.req = none ∧
          t = { s with pending := older ++ newer, turns := s.turns.tail, refused := true })) := by
  unfold step at h
  split at h
  · rename_i hn
    exact .inl ⟨accept_none.mp hn, by simpa using h.symm⟩
  · rename_i p s' ha
    obtain ⟨older, newer, hp, hne, rfl⟩ := accept_some ha
    rw [serve_eq] at h
    simp only [Host.Outcome.next.injEq] at h
    refine .inr ⟨p, older, newer, hp, hne, ?_⟩
    cases he : aloneEntry s.params p.req with
    | none => exact .inr ⟨rfl, by simpa [he] using h.symm⟩
    | some e => exact .inl ⟨e, rfl, by simpa [he] using h.symm⟩

/-- The entry a request gets alone is sound. -/
theorem aloneEntry_sound {c : Config} {r : Req} {e : Entry} (h : aloneEntry c r = some e) :
    e.sound c := by
  unfold aloneEntry at h
  split at h
  · cases h
  · split at h
    · rename_i hv
      cases h
      exact ⟨rfl, hv⟩
    · cases h

/-- The operation decoded is the unit's that the selector chooses. -/
theorem decode_unit {r : Req} {i : Instr} (h : decode r = .ok i) : unitOfOp r.op = some i.unit := by
  unfold decode at h
  unfold unitOfOp
  split_ifs at h ⊢ <;> (cases h; rfl)

/-- A request's entry stands under the unit its selector chooses. -/
theorem aloneEntry_unit {c : Config} {r : Req} {e : Entry} (h : aloneEntry c r = some e) :
    unitOfOp r.op = some e.unit := by
  unfold aloneEntry at h
  split at h
  · cases h
  · rename_i i hd
    split at h
    · cases h
      exact decode_unit hd
    · cases h

end Sys2Proof.Machine
end

