-- ==== Sys2Proof/Tests/Slice0.lean ====
section
/-! SUPPORT. Smoke tests of the checks, decoding of words written out from the spec, the spec's own
vectors (95_test_vectors.md) one step each, and the witnesses of the statements' hypotheses. -/

namespace Sys2Proof.Tests

open Sys2Proof.Machine

/-! ## Well-formedness: for each check a term it accepts and one it refuses -/

theorem test_wf_max_payload : Config.wf ⟨none, 0⟩ = true ∧ Config.wf ⟨some 1460, 7⟩ = true ∧
    Config.wf ⟨some 1459, 0⟩ = false := by decide

theorem test_fits_seq : (Instr.encode (2 ^ 32 - 1) 0 0 0 []).fitsNativePorts = true ∧
    (Instr.encode (2 ^ 32) 0 0 0 []).fitsNativePorts = false := by decide
theorem test_fits_ack : (Instr.encode 0 (2 ^ 32) 0 0 []).fitsNativePorts = false := by decide
theorem test_fits_flags : (Instr.encode 0 0 (2 ^ 16) 0 []).fitsNativePorts = false := by decide
theorem test_fits_win : (Instr.encode 0 0 0 (2 ^ 16) []).fitsNativePorts = false := by decide

theorem test_wf_req_reserved : (Req.idle 0b11#2).wf = false := by decide
theorem test_wf_req_encode : (Req.idle 0b00#2).wf = true ∧
    { Req.idle 0b00#2 with decIn := [0#8] }.wf = false ∧
    { Req.idle 0b00#2 with fxFlags := 1#16 }.wf = false := by decide
theorem test_wf_req_decode_header : { Req.idle 0b01#2 with decIn := [0#8] }.wf = true ∧
    { Req.idle 0b01#2 with encSeq := 1 }.wf = false ∧ { Req.idle 0b01#2 with encAck := 1 }.wf = false ∧
    { Req.idle 0b01#2 with encFlags := 1 }.wf = false ∧ { Req.idle 0b01#2 with encWin := 1 }.wf = false ∧
    { Req.idle 0b01#2 with encPay := [0#8] }.wf = false ∧
    { Req.idle 0b01#2 with fxFlags := 1#16 }.wf = false := by decide
theorem test_wf_req_decode_flags : { Req.idle 0b10#2 with fxFlags := 1#16 }.wf = true ∧
    { Req.idle 0b10#2 with encSeq := 1 }.wf = false ∧
    { Req.idle 0b10#2 with decIn := [0#8] }.wf = false := by decide

/-! ## Decoding: the encodings of 95_test_vectors.md section 3 -/

/-- P1 request 1: op=0b00; seq=100, ack=0, flags=8, win=0, payload=[]. -/
theorem test_decode_encode : decode ⟨0b00#2, 100, 0, 8, 0, [], [], 0#16⟩ =
    .ok (.encode 100 0 8 0 []) := by rfl
/-- P1 request 2: op=0b01; in=00 00 00 64 00 00 00 00 00 08 00 00. -/
theorem test_decode_decode_header :
    decode ⟨0b01#2, 0, 0, 0, 0, [], [0, 0, 0, 0x64, 0, 0, 0, 0, 0, 8, 0, 0], 0#16⟩ =
    .ok (.decodeHeader [0, 0, 0, 0x64, 0, 0, 0, 0, 0, 8, 0, 0]) := by rfl
/-- P1 request 3: op=0b10; flags=0x0008. -/
theorem test_decode_decode_flags : decode ⟨0b10#2, 0, 0, 0, 0, [], [], 0x0008#16⟩ =
    .ok (.decodeFlags 8#16) := by rfl
/-- P4 request 3: op=0b11. -/
theorem test_decode_reserved : decode ⟨0b11#2, 0, 0, 0, 0, [], [], 0#16⟩ = .error .reservedOp := by
  rfl

/-! ## The spec's vectors, one step each -/

/-- The last response of an outcome. -/
def given : Host.Outcome State Fault Refusal → Option Response
  | .next s => s.log.getLast?.map Entry.response
  | .fault _ => none
  | .refused _ => none

/-- What an outcome shows: how many responses were logged, and the mark. -/
def shown : Host.Outcome State Fault Refusal → Option (Nat × Bool)
  | .next s => some (s.log.length, s.refused)
  | .fault _ => none
  | .refused _ => none

/-- Vectors E5 and E7: every byte distinct; reserved flag bits written as given. -/
theorem test_encode_packets :
    given (exec (.encode 0x12345678 0x9ABCDEF0 0x000E 0x1234 [0xAA, 0xBB]) .reset) =
      some ⟨0b00#2, some (.packet [0x12, 0x34, 0x56, 0x78, 0x9A, 0xBC, 0xDE, 0xF0, 0x00, 0x0E, 0x12,
        0x34, 0xAA, 0xBB])⟩ ∧
    given (exec (.encode 7 8 0xFFF1 0 [0x01]) .reset) =
      some ⟨0b00#2, some (.packet [0, 0, 0, 7, 0, 0, 0, 8, 0xFF, 0xF1, 0, 0, 0x01])⟩ := by decide

/-- Vectors E10 to E13: the first value past each width. -/
theorem test_encode_out_of_range :
    given (exec (.encode (2 ^ 32) 0 0 0 []) .reset) = some ⟨0b01#2, none⟩ ∧
    given (exec (.encode 0 (2 ^ 32) 0 0 []) .reset) = some ⟨0b01#2, none⟩ ∧
    given (exec (.encode 0 0 (2 ^ 16) 0 []) .reset) = some ⟨0b01#2, none⟩ ∧
    given (exec (.encode 0 0 0 (2 ^ 16) []) .reset) = some ⟨0b01#2, none⟩ := by decide

/-- Vector H6: 13 bytes, byte 12 ignored. Vector H7: the reserved bit 15 of flags is kept. -/
theorem test_decode_header_fields :
    given (exec (.decodeHeader [0x12, 0x34, 0x56, 0x78, 0x9A, 0xBC, 0xDE, 0xF0, 0x00, 0x0E, 0x12,
        0x34, 0x99]) .reset) =
      some ⟨0b00#2, some (.header 305419896#32 2596069104#32 14#16 4660#16)⟩ ∧
    given (exec (.decodeHeader [0, 0, 0, 1, 0, 0, 0, 2, 0x80, 0x0A, 0x05, 0xB4]) .reset) =
      some ⟨0b00#2, some (.header 1#32 2#32 32778#16 1460#16)⟩ := by decide

/-- Vectors H1 and H3: no byte, and eleven. -/
theorem test_decode_header_truncated :
    given (exec (.decodeHeader []) .reset) = some ⟨0b10#2, none⟩ ∧
    given (exec (.decodeHeader (List.replicate 11 0xFF)) .reset) = some ⟨0b10#2, none⟩ := by decide

/-- Section 2.3, one flag at a time. -/
theorem test_decode_flags_single :
    given (exec (.decodeFlags 0x0008#16) .reset) = some ⟨0b00#2, some (.booleans true false false)⟩ ∧
    given (exec (.decodeFlags 0x0004#16) .reset) = some ⟨0b00#2, some (.booleans false true false)⟩ ∧
    given (exec (.decodeFlags 0x0002#16) .reset) = some ⟨0b00#2, some (.booleans false false true)⟩ := by
  decide

/-- Section 2.3: reserved bits only, bit 0, bit 4, and a mixture. -/
theorem test_decode_flags_reserved :
    given (exec (.decodeFlags 0xFFF1#16) .reset) = some ⟨0b00#2, some (.booleans false false false)⟩ ∧
    given (exec (.decodeFlags 0x0010#16) .reset) = some ⟨0b00#2, some (.booleans false false false)⟩ ∧
    given (exec (.decodeFlags 0x800A#16) .reset) = some ⟨0b00#2, some (.booleans true false true)⟩ := by
  decide

/-- Vector X1: op=0b11 is refused, and the log is unchanged. -/
theorem test_step_reserved : shown (step (State.reset.withFetchWord 8 3)) = some (0, true) := by decide

/-- Vector E17: 1461 bytes with MAX_PAYLOAD = 1460. -/
theorem test_encode_beyond_max_payload :
    shown (exec (.encode 0 0 0 0 (List.replicate 1461 0)) { State.reset with params := ⟨some 1460, 0⟩ }) =
      some (0, true) := by
  have h : beyondMaxPayload ⟨some 1460, 0⟩ (List.replicate 1461 0) = true := by
    simp only [beyondMaxPayload, List.length_replicate]
    decide
  simp only [exec, execEncode, encodeVerdict, h, if_true]
  rfl

/-! ## Order of the lanes -/

/-- Two requests to one instance of the decoder, then one to the flag extractor. -/
def threeInFlight : State :=
  { State.reset with pending := [⟨0, encode (.decodeHeader [])⟩, ⟨0, encode (.decodeHeader [1])⟩,
      ⟨0, encode (.decodeFlags 2#16)⟩] }

/-- The flag extractor's turn: its request is taken before the older ones of the other unit. -/
theorem test_turn_of_another_unit :
    given (step { threeInFlight with turns := [⟨some .flagBitExtractor, 0⟩] }) =
      some ⟨0b00#2, some (.booleans false false true)⟩ := by decide

/-- A lane gives its oldest request; so does the machine where no turn is given. -/
theorem test_oldest_of_a_lane :
    (threeInFlight.accept.map fun q => q.1.req.decIn) = some [] := by decide

/-! ## Written requests (30_encoding.md R64, R65) -/

/-- Vector E9, and R64's other numeric forms. -/
theorem test_text_encode :
    (parseRequest "ENCODE 100, 200, SYN|ACK, 512, [68 69]").bind (RequestForm.expand []) =
      some (.encode 100 200 12 512 [0x68, 0x69]) ∧
    (parseRequest "ENCODE 2**32, 0x10, 0b1110, 0, b\"a\\xFF\"").bind (RequestForm.expand []) =
      some (.encode 4294967296 16 14 0 [0x61, 0xFF]) := by decide

/-- Vector H3, and R64's other byte forms. -/
theorem test_text_bytes :
    (parseRequest "DECODE_HEADER bytes(11, FF)").bind (RequestForm.expand []) =
      some (.decodeHeader (List.replicate 11 0xFF)) ∧
    (parseRequest "DECODE_HEADER b\"\\x00\"*11").bind (RequestForm.expand []) =
      some (.decodeHeader (List.replicate 11 0)) := by decide

/-- P1 requests 3 and 6: the flags of result 2, and ACK_PKT. -/
theorem test_text_program :
    (parseRequest "DECODE_FLAGS $2.flags").bind (RequestForm.expand
      [none, some ⟨0b00#2, some (.header 100#32 0#32 8#16 0#16)⟩]) = some (.decodeFlags 8#16) ∧
    (parseRequest "ACK_PKT 101, 301, 4096").bind (RequestForm.expand []) =
      some (.encode 101 301 4 4096 []) := by decide

/-- P1 request 5: the flags the host reads from bytes 8 and 9 of the packet of request 4. -/
theorem test_text_field_of_packet :
    (parseRequest "DECODE_FLAGS $4.flags").bind (RequestForm.expand [none, none, none,
      some ⟨0b00#2, some (.packet [0, 0, 1, 0x2C, 0, 0, 0, 0x65, 0, 0x0C, 0x10, 0])⟩]) =
      some (.decodeFlags 0x000C#16) := by decide

/-- P3 request 1 on a short payload, and a reference to a packet. -/
theorem test_text_data_pkt :
    (parseRequest "DATA_PKT 1, 0, 0, b\"0\"*3").bind (RequestForm.expand []) =
      some (.encode 1 0 0 0 [0x30, 0x30, 0x30]) ∧
    (parseRequest "DECODE_HEADER $1").bind (RequestForm.expand [some ⟨0b00#2, some (.packet [7])⟩]) =
      some (.decodeHeader [7]) := by decide

/-- R87: a DECODE_FLAGS operand of 2^16 cannot be presented; and no other line is a request. -/
theorem test_text_refused :
    (parseRequest "DECODE_FLAGS 2**16").bind (RequestForm.expand []) = none ∧
    parseRequest "DECODE 4" = none ∧ parseRequest "DECODE_FLAGS 4 5" = none := by decide

/-! ## Witnesses: each statement's hypotheses are met, at the edge of each clause -/

/-- MAX_PAYLOAD at its least finite value. -/
def finite : State := { State.reset with params := ⟨some 1460, 0⟩ }

/-- EncodeFollowsItsRule, EncodeCopiesPayloadOfAnyLength: the clause of the refusal. -/
theorem witness_payload_refused : ∃ m, finite.params.maxPayload = some m ∧
    m < (List.replicate 1461 0#8).length :=
  ⟨1460, rfl, by simp only [List.length_replicate]; decide⟩

/-- EncodeFollowsItsRule, EncodeCopiesPayloadOfAnyLength, OutOfRangeExactlyPastWidths and the statements
with the same premise: a payload of just MAX_PAYLOAD bytes. -/
theorem witness_payload_accepted : ∀ m, finite.params.maxPayload = some m →
    (List.replicate 1460 0#8).length ≤ m := by
  rintro m ⟨⟩
  exact List.length_replicate.le

/-- The same premise where MAX_PAYLOAD is unbounded. -/
theorem witness_payload_unbounded (payload : Bytes) : State.reset.params.maxPayload = none ∧
    ∀ m, State.reset.params.maxPayload = some m → payload.length ≤ m := by
  simp [State.reset, Config.reference]

/-- EncodeFollowsItsRule and the other statements on ENCODE: the largest operands in range. -/
theorem witness_in_range : 2 ^ 32 - 1 < 2 ^ 32 ∧ 2 ^ 16 - 1 < 2 ^ 16 := by decide

/-- EncodeFollowsItsRule: each way of being out of range, at the first value past the width. -/
theorem witness_out_of_range : 2 ^ 32 ≤ 4294967296 ∧ 2 ^ 16 ≤ 65536 := by decide

/-- RefusalComesBeforeOutOfRange: both at once. -/
theorem witness_refusal_and_out_of_range : finite.params.maxPayload = some 1460 ∧
    1460 < (List.replicate 1461 0#8).length ∧ 2 ^ 32 ≤ 4294967296 :=
  ⟨rfl, by simp only [List.length_replicate]; decide, by decide⟩

/-- EncodePacketLength, FieldsOfAnEncodedResultAreTheOperands: an ENCODE that answers a packet. -/
theorem witness_encode_packet : ∃ t, exec (.encode 1 0 0 0 [7]) .reset = .next t ∧
    t.log = State.reset.log ++ [⟨.packetHeaderEncoder, .encode 1 0 0 0 [7],
      ⟨0b00#2, some (.packet [0, 0, 0, 1, 0, 0, 0, 0, 0, 0, 0, 0, 7])⟩⟩] := ⟨_, rfl, by decide⟩

/-- HeaderIsOne96BitValue, HeadersAndFieldsCorrespondOneToOne, DecodeHeaderIgnoresBytesFromOffset12, and
the clauses on 12 bytes of DecodeHeaderFollowsItsRule and TruncatedInputExactlyBelow12Bytes. -/
theorem witness_twelve_bytes : (List.replicate 12 0xFF#8).length = 12 ∧
    12 ≤ (List.replicate 12 0xFF#8).length := by decide

/-- DecodeHeaderFollowsItsRule, TruncatedInputExactlyBelow12Bytes: the clause below 12 bytes. -/
theorem witness_eleven_bytes : (List.replicate 11 0xFF#8).length < 12 := by decide

/-- ReservedFlagBitsCarriedAndIgnored: an input with given flags bytes, reserved bits set. -/
theorem witness_flags_bytes : ∃ input : Bytes, input[8]? = some ((0xFFF1#16).extractLsb' 8 8) ∧
    input[9]? = some ((0xFFF1#16).extractLsb' 0 8) ∧ 12 ≤ input.length :=
  ⟨[0, 0, 0, 7, 0, 0, 0, 8, 0xFF, 0xF1, 0, 0], by decide⟩

/-- SelectorChoosesTheOperation, RefusalsAreExactlyTheTwoCases: each selector value occurs. -/
theorem witness_selectors : (Req.idle 0b00#2).op = 0b00#2 ∧ (Req.idle 0b01#2).op = 0b01#2 ∧
    (Req.idle 0b10#2).op = 0b10#2 ∧ (Req.idle 0b11#2).op = 0b11#2 := by decide

/-- RefusalsAreExactlyTheTwoCases: the clause of the payload, and the clause of no refusal at its edge. -/
theorem witness_refusal_cases :
    (∃ m, (encode (.encode 0 0 0 0 (List.replicate 1461 0))).op = 0b00#2 ∧
      finite.params.maxPayload = some m ∧
      m < (encode (.encode 0 0 0 0 (List.replicate 1461 0))).encPay.length) ∧
    (encode (.encode 0 0 0 0 (List.replicate 1460 0))).op ≠ 0b11#2 ∧
    ∀ m, finite.params.maxPayload = some m →
      (encode (.encode 0 0 0 0 (List.replicate 1460 0))).encPay.length ≤ m :=
  ⟨⟨1460, rfl, rfl, by simp only [encode, List.length_replicate]; decide⟩,
    by simp only [encode, Req.idle]; decide, by rintro m ⟨⟩; exact List.length_replicate.le⟩

/-- RequestDecodeAndEncodeAgree: a well-formed request of each operation. -/
theorem witness_wf_requests : (encode (.encode 1 2 3 4 [5])).wf = true ∧
    (encode (.decodeHeader [5])).wf = true ∧ (encode (.decodeFlags 5#16)).wf = true := by decide

/-- ReservedSelectorIsRefused: a state whose next request has the reserved selector. -/
theorem witness_reserved_next : ∃ p s', (State.reset.withFetchWord 8 3).accept = some (p, s') ∧
    p.req.op = 0b11#2 := ⟨_, _, rfl, rfl⟩

/-- StepRunsTheDecodedOperation: a request of each operation is taken next. -/
theorem witness_accepted :
    (∃ p s' i, (State.reset.withFetchWord 8 0).accept = some (p, s') ∧ decode p.req = .ok i) ∧
    (∃ p s' i, (State.reset.withFetchWord 8 1).accept = some (p, s') ∧ decode p.req = .ok i) ∧
    (∃ p s' i, (State.reset.withFetchWord 8 2).accept = some (p, s') ∧ decode p.req = .ok i) :=
  ⟨⟨_, _, _, rfl, rfl⟩, ⟨_, _, _, rfl, rfl⟩, ⟨_, _, _, rfl, rfl⟩⟩

/-- OperationsChangeOnlyLogOrMark: each operation answers a next state. -/
theorem witness_exec_next : (∃ t, exec (.encode 1 2 3 4 [5]) .reset = .next t) ∧
    (∃ t, exec (.decodeHeader []) .reset = .next t) ∧
    (∃ t, exec (.decodeFlags 0#16) .reset = .next t) := ⟨⟨_, rfl⟩, ⟨_, rfl⟩, ⟨_, rfl⟩⟩

/-- EqualOperandsGetEqualResponses: two different states with one MAX_PAYLOAD. -/
theorem witness_equal_max_payload : State.reset.params.maxPayload = threeInFlight.params.maxPayload ∧
    State.reset ≠ threeInFlight := by decide

/-- ErrorsChangeNoLaterResponse: an ENCODE and a DECODE_HEADER that end in their error. -/
theorem witness_errors : (∃ t, exec (.encode (2 ^ 32) 0 0 0 []) .reset = .next t ∧
      t.log = State.reset.log ++ [⟨.packetHeaderEncoder, .encode (2 ^ 32) 0 0 0 [],
        ⟨0b01#2, none⟩⟩]) ∧
    (∃ t, exec (.decodeHeader []) .reset = .next t ∧
      t.log = State.reset.log ++ [⟨.packetHeaderDecoder, .decodeHeader [], ⟨0b10#2, none⟩⟩]) :=
  ⟨⟨_, rfl, by decide⟩, ⟨_, rfl, by decide⟩⟩

/-- IdleStepChangesNothing. -/
theorem witness_idle : State.reset.pending = [] := rfl

/-- ResetDiscardsRequestsInFlight, RunsOnlyExtendTheLog, LatencyIsUnobservable: runs that answer. -/
theorem witness_runs : (∃ t, Sys2Proof.core.run 2 threeInFlight.hostReset = .next t) ∧
    (∃ t, Sys2Proof.core.run 2 (threeInFlight.hostReset.present ⟨0, Req.idle 0b10#2⟩) = .next t) ∧
    (∃ t, Sys2Proof.core.run 2 threeInFlight = .next t) := ⟨⟨_, rfl⟩, ⟨_, rfl⟩, ⟨_, rfl⟩⟩

/-- StepKeepsLogSound: a state with a sound, non-empty log and a step from it. -/
theorem witness_inv : ∃ s t, exec (.decodeFlags 8#16) threeInFlight = .next s ∧ s.inv ∧
    step s = .next t := ⟨_, _, rfl, by decide, rfl⟩

/-- RequestsDoNotInteract: a run as long as the requests in flight. -/
theorem witness_long_enough : threeInFlight.pending.length ≤ 3 := by decide

/-- UnitsAnswerInTheOrderTheyAccept: one instance of the decoder with two requests, and a run. -/
theorem witness_single_instance : threeInFlight.singleInstance .packetHeaderDecoder 0 ∧
    ∃ t, Sys2Proof.core.run 1 threeInFlight = .next t := ⟨by decide, ⟨_, rfl⟩⟩

/-- AnyLaneMayAnswerNext: the flag extractor's request behind two of the decoder's. -/
theorem witness_oldest_of_its_lane : ∃ older newer p,
    threeInFlight.pending = older ++ p :: newer ∧ (∀ q ∈ older, q.lane ≠ p.lane) ∧ older ≠ [] :=
  ⟨[⟨0, encode (.decodeHeader [])⟩, ⟨0, encode (.decodeHeader [1])⟩], [],
    ⟨0, encode (.decodeFlags 2#16)⟩, rfl, by decide, by decide⟩

/-- NativeEncoderPortsNeverGiveOutOfRange: ports at their largest values, with a payload. -/
theorem witness_native_ports : ∃ p : NativeEncoderIn, p.encLen = p.encPay.length ∧
    p.encSeq = 0xFFFFFFFF#32 ∧ ∀ m, finite.params.maxPayload = some m → p.encLen ≤ m :=
  ⟨⟨0xFFFFFFFF#32, 0#32, 0xFFFF#16, 0#16, [1], 1⟩, rfl, rfl, by simp [finite]⟩

/-- UnitPortsShowTheSharedPortsResponse: ports wider than the fields, at the first value past a width. -/
theorem witness_wide_ports : ∃ p : EncoderIn 33 32 16 17, p.encLen = p.encPay.length ∧
    2 ^ 32 ≤ p.encSeq.toNat ∧ 2 ^ 16 ≤ p.encWin.toNat ∧
    ∀ m, finite.params.maxPayload = some m → p.encLen ≤ m :=
  ⟨⟨0x100000000#33, 0#32, 0#16, 0x10000#17, [1], 1⟩, rfl, by decide, by decide, by simp [finite]⟩

/-- UnitPortsShowTheSharedPortsResponse: a payload past MAX_PAYLOAD, and operands in range. -/
theorem witness_ports_refused : ∃ p : EncoderIn 33 32 16 17, p.encLen = p.encPay.length ∧
    p.encSeq.toNat < 2 ^ 32 ∧ p.encWin.toNat < 2 ^ 16 ∧
    ∃ m, finite.params.maxPayload = some m ∧ m < p.encLen :=
  ⟨⟨0xFFFFFFFF#33, 0#32, 0#16, 0xFFFF#17, List.replicate 1461 0, 1461⟩, List.length_replicate.symm,
    by decide, by decide, 1460, rfl, by decide⟩

/-- The encoder on ports wider than the fields gives OutOfRange for 2^32, as 40_encoder.md R73 asks. -/
theorem test_wide_encoder_port :
    encoderUnit Config.reference ⟨0b11#2, [7], 1⟩
        (⟨0x100000000#33, 0#32, 0#16, 0#16, [], 0⟩ : EncoderIn 33 32 16 16) =
      some ⟨0b01#2, [7], 1⟩ := by decide

/-- PseudoRequestsExpandToOneEncode, WrittenOperandsHaveTheirValues: operands that are no small literals
and have a value, one of them past its width. -/
theorem witness_written_operands :
    (NumForm.power 32).value [] = some 4294967296 ∧
    (NumForm.field 1 .ack).value [some ⟨0b00#2, some (.header 1#32 2#32 3#16 4#16)⟩] = some 2 ∧
    (NumForm.flags [.syn, .ack]).value [] = some 12 ∧
    (BytesForm.copies 2 [1, 2]).value [] = some [1, 2, 1, 2] ∧
    (BytesForm.result 1).value [some ⟨0b00#2, some (.packet [7])⟩] = some [7] := by decide

/-- WrittenOperandsHaveTheirValues: a header and a packet among the responses. -/
theorem witness_named_results :
    ([some ⟨0b00#2, some (.header 1#32 2#32 3#16 4#16)⟩, none,
        some ⟨0b00#2, some (.packet [7])⟩] : List (Option Response))[0]? =
      some (some ⟨0b00#2, some (.header 1#32 2#32 3#16 4#16)⟩) ∧
    ([none, some ⟨0b00#2, some (.packet [7])⟩] : List (Option Response))[1]? =
      some (some ⟨0b00#2, some (.packet [7])⟩) := by decide

/-- PseudoRequestsExpandToOneEncode: the reference payload. -/
theorem witness_reference_payload : (List.replicate 1460 0x30#8).length = 1460 ∧
    ∀ m, finite.params.maxPayload = some m → (List.replicate 1460 0x30#8).length ≤ m :=
  ⟨List.length_replicate, by rintro m ⟨⟩; exact List.length_replicate.le⟩

end Sys2Proof.Tests
end

section
/-! LATENCY (00_scope.md R9): no verdict reads it, so putting another value in its place commutes with
accepting, serving, stepping and running. -/

namespace Sys2Proof.Machine

/-- The state with another LATENCY (R9). -/
def State.withLatency (latency : Nat) (s : State) : State :=
  { s with params := { s.params with latency := latency } }

section
variable (latency : Nat) (s : State)

@[simp] theorem withLatency_pending : (s.withLatency latency).pending = s.pending := rfl
@[simp] theorem withLatency_turns : (s.withLatency latency).turns = s.turns := rfl
@[simp] theorem withLatency_log : (s.withLatency latency).log = s.log := rfl
@[simp] theorem withLatency_refused : (s.withLatency latency).refused = s.refused := rfl
@[simp] theorem withLatency_params :
    (s.withLatency latency).params = { s.params with latency := latency } := rfl

theorem settle_withLatency (i : Instr) (v : Verdict) :
    (s.withLatency latency).settle i v = (s.settle i v).withLatency latency := by
  cases v <;> rfl

theorem beyondMaxPayload_congr {c d : Config} (h : c.maxPayload = d.maxPayload) (payload : Bytes) :
    beyondMaxPayload c payload = beyondMaxPayload d payload := by
  cases c; cases d; cases h; rfl

/-- Of the parameters a verdict reads MAX_PAYLOAD alone. -/
theorem verdictOf_congr {c d : Config} (h : c.maxPayload = d.maxPayload) (i : Instr) :
    verdictOf c i = verdictOf d i := by
  cases i with
  | encode => simp only [verdictOf, encodeVerdict, beyondMaxPayload_congr h]
  | decodeHeader => rfl
  | decodeFlags => rfl

theorem accept_withLatency : (s.withLatency latency).accept =
    s.accept.map fun q => (q.1, q.2.withLatency latency) := by
  simp only [State.accept, withLatency_turns, withLatency_pending]
  cases takeNext s.turns s.pending <;> rfl

theorem exec_withLatency {t : State} {i : Instr} (h : exec i s = .next t) :
    exec i (s.withLatency latency) = .next (t.withLatency latency) := by
  rw [exec_eq_settle, Host.Outcome.next.injEq] at h
  subst h
  rw [exec_eq_settle, settle_withLatency, verdictOf_congr (c := (s.withLatency latency).params) (d := s.params) rfl]

theorem serve_withLatency {t : State} {r : Req} (h : serve r s = .next t) :
    serve r (s.withLatency latency) = .next (t.withLatency latency) := by
  unfold serve at h ⊢
  cases hd : decode r with
  | ok i =>
    simp only [hd] at h ⊢
    exact exec_withLatency latency s h
  | error reason =>
    simp only [hd, Host.Outcome.next.injEq] at h ⊢
    exact h ▸ rfl

theorem step_withLatency {t : State} (h : step s = .next t) :
    step (s.withLatency latency) = .next (t.withLatency latency) := by
  unfold step at h ⊢
  rw [accept_withLatency]
  cases ha : s.accept with
  | none =>
    simp only [ha, Host.Outcome.next.injEq] at h
    exact h ▸ rfl
  | some q =>
    simp only [ha] at h
    exact serve_withLatency latency q.2 h

end

/-- Every step answers a next state. -/
theorem step_next (s : State) : ∃ t, step s = .next t := by
  unfold step
  cases s.accept with
  | none => exact ⟨s, rfl⟩
  | some q => exact ⟨_, serve_eq q.1.req q.2⟩

/-- A run goes on from the state its first step answers. -/
theorem run_succ {M : Host.Core} {s s' : M.State} (h : M.step s = .next s') (n : Nat) :
    M.run (n + 1) s = M.run n s' := by
  rw [Host.Core.run, h]

/-- What commutes with every step commutes with every run. -/
theorem run_commutes {f : State → State}
    (hf : ∀ s t, step s = .next t → step (f s) = .next (f t)) (n : Nat) {s t : State}
    (h : Sys2Proof.core.run n s = .next t) : Sys2Proof.core.run n (f s) = .next (f t) := by
  induction n generalizing s with
  | zero =>
    cases h
    rfl
  | succ n ih =>
    obtain ⟨s', hs⟩ := step_next s
    rw [run_succ (M := Sys2Proof.core) hs] at h
    rw [run_succ (M := Sys2Proof.core) (hf s s' hs)]
    exact ih h

/-- Settles O37: another LATENCY commutes with every step, and so with every run. -/
theorem latencyIsUnobservable : Obligations.LatencyIsUnobservable := by
  intro n latency s t h
  exact run_commutes (f := State.withLatency latency)
    (fun s _ hs => step_withLatency latency s hs) n h

end Sys2Proof.Machine
end


section
/-! The record of 10_state.md R22 along a run: a step is the service of the request it accepts (R22), a run
only extends the log and the mark, and no step reads either (R15, R22). -/

namespace Sys2Proof.Machine

section
variable {s s' : State} {p : Presented}

theorem step_of_accept_none (h : s.accept = none) : step s = .next s := by
  rw [step, h]

theorem step_of_accept_some (h : s.accept = some (p, s')) : step s = serve p.req s' := by
  rw [step, h]

theorem serve_of_decode {r : Req} {i : Instr} (h : decode r = .ok i) : serve r s = exec i s := by
  rw [serve, h]

end

/-- Settles O27: the accepted request is served by its operation, and `accept_some` says which request
that is. -/
theorem stepRunsTheDecodedOperation : Obligations.StepRunsTheDecodedOperation := by
  intro s s' p i ha hd
  exact ⟨(step_of_accept_some ha).trans (serve_of_decode hd), accept_some ha⟩

/-! ## Reset -/

/-- Settles O31: each value is the one the definition of the reset state gives. -/
theorem resetLeavesNothing : Obligations.ResetLeavesNothing := ⟨rfl, rfl, rfl, rfl⟩

theorem logSound_of_log_nil {s : State} (h : s.log = []) : s.logSound := by
  simp [State.logSound, h]

/-- Settles O34: the reference parameters are legal, and an empty log is sound. -/
theorem resetMeetsTheInvariant : Obligations.ResetMeetsTheInvariant :=
  ⟨rfl, logSound_of_log_nil rfl⟩

/-! ## Runs answer, and relate their ends by what relates the ends of a step -/

/-- Every run answers a next state. -/
theorem run_next (n : Nat) (s : State) : ∃ t, Sys2Proof.core.run n s = .next t := by
  induction n generalizing s with
  | zero => exact ⟨s, rfl⟩
  | succ n ih =>
    obtain ⟨s', hs⟩ := step_next s
    rw [run_succ (M := Sys2Proof.core) hs]
    exact ih s'

/-- A preorder that holds along every step holds along every run. -/
theorem run_rel {R : State → State → Prop} (hrefl : ∀ s, R s s)
    (htrans : ∀ s t u, R s t → R t u → R s u) (hstep : ∀ s t, step s = .next t → R s t)
    (n : Nat) {s t : State} (h : Sys2Proof.core.run n s = .next t) : R s t := by
  induction n generalizing s with
  | zero =>
    cases h
    exact hrefl t
  | succ n ih =>
    obtain ⟨s', hs⟩ := step_next s
    rw [run_succ (M := Sys2Proof.core) hs] at h
    exact htrans s s' t (hstep s s' hs) (ih h)

/-! ## A run extends the record -/

/-- `t` has all that `s` has in its log, the mark if `s` has it, and the parameters of `s`. -/
def State.ExtendedBy (s t : State) : Prop :=
  s.log <+: t.log ∧ (s.refused = true → t.refused = true) ∧ t.params = s.params

namespace State.ExtendedBy

theorem refl (s : State) : s.ExtendedBy s := ⟨List.prefix_rfl, id, rfl⟩

theorem trans (s t u : State) (hst : s.ExtendedBy t) (htu : t.ExtendedBy u) : s.ExtendedBy u := by
  obtain ⟨hlog, hmark, hparams⟩ := hst
  obtain ⟨hlog', hmark', hparams'⟩ := htu
  exact ⟨hlog.trans hlog', hmark' ∘ hmark, hparams'.trans hparams⟩

end State.ExtendedBy

theorem step_extendedBy (s t : State) (h : step s = .next t) : s.ExtendedBy t := by
  obtain ⟨-, rfl⟩ | ⟨p, older, newer, -, -, ⟨e, -, rfl⟩ | ⟨-, rfl⟩⟩ := step_cases h
  · exact .refl t
  · exact ⟨List.prefix_append _ _, id, rfl⟩
  · exact ⟨List.prefix_rfl, fun _ => rfl, rfl⟩

/-- Settles O35: every step extends the record, so every run does. -/
theorem runsOnlyExtendTheLog : Obligations.RunsOnlyExtendTheLog := by
  intro n s t h
  obtain ⟨⟨es, hes⟩, hmark, hparams⟩ := run_rel State.ExtendedBy.refl State.ExtendedBy.trans
    step_extendedBy n h
  exact ⟨⟨es, hes.symm⟩, hmark, hparams⟩

/-! ## No step reads the record -/

/-- The state whose record goes on from an earlier log and mark. -/
def State.recordAfter (log : List Entry) (mark : Bool) (s : State) : State :=
  { s with log := log ++ s.log, refused := mark || s.refused }

section
variable (log : List Entry) (mark : Bool) (s : State)

@[simp] theorem recordAfter_pending : (s.recordAfter log mark).pending = s.pending := rfl
@[simp] theorem recordAfter_turns : (s.recordAfter log mark).turns = s.turns := rfl
@[simp] theorem recordAfter_log : (s.recordAfter log mark).log = log ++ s.log := rfl
@[simp] theorem recordAfter_refused : (s.recordAfter log mark).refused = (mark || s.refused) := rfl
@[simp] theorem recordAfter_params : (s.recordAfter log mark).params = s.params := rfl

theorem accept_recordAfter : (s.recordAfter log mark).accept =
    s.accept.map fun q => (q.1, q.2.recordAfter log mark) := by
  simp only [State.accept, recordAfter_turns, recordAfter_pending]
  cases takeNext s.turns s.pending <;> rfl

theorem serve_recordAfter {t : State} {r : Req} (h : serve r s = .next t) :
    serve r (s.recordAfter log mark) = .next (t.recordAfter log mark) := by
  rw [serve_eq, Host.Outcome.next.injEq] at h
  subst h
  rw [serve_eq, recordAfter_params]
  cases aloneEntry s.params r with
  | some e => simp [State.recordAfter]
  | none => simp [State.recordAfter]

theorem step_recordAfter {t : State} (h : step s = .next t) :
    step (s.recordAfter log mark) = .next (t.recordAfter log mark) := by
  have haccept := accept_recordAfter log mark s
  cases ha : s.accept with
  | none =>
    rw [step_of_accept_none ha, Host.Outcome.next.injEq] at h
    rw [ha] at haccept
    rw [step_of_accept_none haccept, h]
  | some q =>
    rw [step_of_accept_some ha] at h
    rw [ha] at haccept
    rw [step_of_accept_some haccept]
    exact serve_recordAfter log mark q.2 h

end

/-- Settles O36: both states are one state with an empty record, put after two different records, and that
commutes with every run. -/
theorem runsReadNeitherLogNorMark : Obligations.RunsReadNeitherLogNorMark := by
  intro n s log mark
  obtain ⟨t, ht⟩ := run_next n { s with log := [], refused := false }
  have run_after (log : List Entry) (mark : Bool) :
      Sys2Proof.core.run n { s with log := log, refused := mark } =
        .next (t.recordAfter log mark) := by
    have h := run_commutes (f := State.recordAfter log mark)
      (fun s _ hs => step_recordAfter log mark s hs) n ht
    simpa [State.recordAfter] using h
  exact ⟨t, t.log, t.refused, run_after s.log s.refused, run_after log mark⟩

end Sys2Proof.Machine
end

section
/-! Requests do not interact (20_memory.md R38, R39): what a step takes from the requests in flight is what
it adds to the log, so the log together with the entries still owed is kept along every run. -/

namespace Sys2Proof.Machine

/-! ## What one step does to the requests in flight and to the record -/

/-- A step with a request in flight takes one, the oldest of its lane, and records what the request gets
alone: its entry in the log, or the mark. -/
theorem step_takes {s t : State} (h : step s = .next t) :
    (s.pending = [] ∧ t = s) ∨
    ∃ p older newer, s.pending = older ++ p :: newer ∧ (∀ q ∈ older, q.lane ≠ p.lane) ∧
      t.pending = older ++ newer ∧ t.params = s.params ∧
      t.log = s.log ++ (aloneEntry s.params p.req).toList ∧
      (t.supportsClaims ↔ s.supportsClaims ∧ (aloneEntry s.params p.req).isSome) := by
  obtain hidle | ⟨p, older, newer, hp, hne, ⟨e, he, rfl⟩ | ⟨he, rfl⟩⟩ := step_cases h
  · exact .inl hidle
  · exact .inr ⟨p, older, newer, hp, hne, rfl, rfl, by simp [he], by simp [he]⟩
  · exact .inr ⟨p, older, newer, hp, hne, rfl, rfl, by simp [he], by simp [he]⟩

theorem step_pending_length {s t : State} (h : step s = .next t) :
    t.pending.length = s.pending.length - 1 := by
  obtain ⟨hnil, rfl⟩ | ⟨p, older, newer, hs, -, ht, -⟩ := step_takes h
  · simp [hnil]
  · simp only [hs, ht, List.length_append, List.length_cons]
    omega

theorem run_pending_length (n : Nat) {s t : State} (h : Sys2Proof.core.run n s = .next t) :
    t.pending.length = s.pending.length - n := by
  induction n generalizing s with
  | zero =>
    cases h
    rfl
  | succ n ih =>
    obtain ⟨s', hs⟩ := step_next s
    rw [run_succ (M := Sys2Proof.core) hs] at h
    rw [ih h, step_pending_length hs]
    omega

/-! ## A sound log -/

/-- Settles O33: a step adds to the log at most the entry its request gets alone, and that entry is
sound. -/
theorem stepKeepsLogSound : Obligations.StepKeepsLogSound := by
  rintro s t ⟨hwf, hsound⟩ h
  obtain ⟨-, rfl⟩ | ⟨p, older, newer, -, -, -, hparams, hlog, -⟩ := step_takes h
  · exact ⟨hwf, hsound⟩
  · refine ⟨hparams ▸ hwf, fun e he => ?_⟩
    rw [hparams]
    rw [hlog, List.mem_append, Option.mem_toList] at he
    obtain hold | hnew := he
    · exact hsound e hold
    · exact aloneEntry_sound hnew

/-! ## The entries owed -/

/-- The entries these requests get when each is presented alone, in their order. -/
def entriesAlone (c : Config) (ps : List Presented) : List Entry :=
  ps.filterMap fun p => aloneEntry c p.req

theorem owed_eq (s : State) : s.owed = entriesAlone s.params s.pending := rfl

@[simp] theorem entriesAlone_append (c : Config) (ps qs : List Presented) :
    entriesAlone c (ps ++ qs) = entriesAlone c ps ++ entriesAlone c qs :=
  List.filterMap_append

@[simp] theorem entriesAlone_cons (c : Config) (p : Presented) (ps : List Presented) :
    entriesAlone c (p :: ps) = (aloneEntry c p.req).toList ++ entriesAlone c ps := by
  cases h : aloneEntry c p.req <;> simp [entriesAlone, h]

theorem owed_of_ended {s : State} (h : s.ended) : s.owed = [] := by
  simp [State.owed, h]

/-- What the log gains is what is no longer owed. -/
theorem step_log_owed_perm (s t : State) (h : step s = .next t) :
    (t.log ++ t.owed).Perm (s.log ++ s.owed) := by
  obtain ⟨-, rfl⟩ | ⟨p, older, newer, hs, -, ht, hparams, hlog, -⟩ := step_takes h
  · exact .refl _
  · simp only [owed_eq, hs, ht, hparams, hlog, entriesAlone_append, entriesAlone_cons,
      List.append_assoc, List.perm_append_left_iff]
    simpa only [List.append_assoc] using List.perm_append_comm.append_right _

/-! ## Which runs support claims -/

/-- No request has been refused, and none in flight is refused when presented alone. -/
def State.refusesNone (s : State) : Prop :=
  s.supportsClaims ∧ ∀ p ∈ s.pending, (aloneEntry s.params p.req).isSome

theorem step_refusesNone_iff (s t : State) (h : step s = .next t) :
    t.refusesNone ↔ s.refusesNone := by
  obtain ⟨-, rfl⟩ | ⟨p, older, newer, hs, -, ht, hparams, -, hclaims⟩ := step_takes h
  · rfl
  · simp only [State.refusesNone, hs, ht, hparams, hclaims, List.forall_mem_append,
      List.forall_mem_cons]
    tauto

theorem refusesNone_iff_of_ended {s : State} (h : s.ended) : s.refusesNone ↔ s.supportsClaims := by
  simp [State.refusesNone, h]

/-- A request gets an entry alone exactly if it is answered alone. -/
theorem aloneEntry_isSome_iff (c : Config) (r : Req) :
    (aloneEntry c r).isSome ↔ ∃ rsp, verdictOfReq c r = .respond rsp := by
  unfold aloneEntry verdictOfReq
  cases decode r with
  | error reason => simp
  | ok i => cases h : verdictOf c i <;> simp [h]

/-- Settles O38: the log with the entries owed is the same up to order all along the run, and so is whether
any request is refused; at the end of the run nothing is owed. -/
theorem requestsDoNotInteract : Obligations.RequestsDoNotInteract := by
  intro n s hn
  obtain ⟨t, ht⟩ := run_next n s
  have hended : t.ended := List.length_eq_zero_iff.mp (by rw [run_pending_length n ht]; omega)
  have hperm : (t.log ++ t.owed).Perm (s.log ++ s.owed) :=
    run_rel (R := fun s t => (t.log ++ t.owed).Perm (s.log ++ s.owed)) (fun _ => .refl _)
      (fun _ _ _ hst htu => htu.trans hst) step_log_owed_perm n ht
  have hclaims : t.refusesNone ↔ s.refusesNone :=
    run_rel (R := fun s t => t.refusesNone ↔ s.refusesNone) (fun _ => .rfl)
      (fun _ _ _ hst htu => htu.trans hst) step_refusesNone_iff n ht
  obtain ⟨⟨given, hgiven⟩, -⟩ := runsOnlyExtendTheLog n s t ht
  refine ⟨t, ht, hended, ⟨given, hgiven, ?_⟩, ?_⟩
  · rwa [owed_of_ended hended, List.append_nil, hgiven, List.perm_append_left_iff] at hperm
  · rw [← refusesNone_iff_of_ended hended, hclaims]
    simp only [State.refusesNone, aloneEntry_isSome_iff]

/-! ## The order within one lane -/

@[simp] theorem ofUnit_append (u : UnitName) (es fs : List Entry) :
    ofUnit u (es ++ fs) = ofUnit u es ++ ofUnit u fs :=
  List.filter_append ..

theorem ofUnit_eq_nil_iff {u : UnitName} {es : List Entry} :
    ofUnit u es = [] ↔ ∀ e ∈ es, e.unit ≠ u := by
  simp [ofUnit, List.filter_eq_nil_iff]

/-- All requests in flight for a unit of a single lane are in that lane. -/
theorem lane_eq_of_singleInstance {s : State} {u : UnitName} {k : Nat} (h : s.singleInstance u k)
    {p q : Presented} (hp : p ∈ s.pending) (hq : q ∈ s.pending)
    (hpu : unitOfOp p.req.op = some u) (hqu : unitOfOp q.req.op = some u) : q.lane = p.lane := by
  simp only [Presented.lane, hpu, hqu, h p hp hpu, h q hq hqu]

/-- Where a unit has a single lane in flight, the oldest request of its lane gives the unit an entry only if
no older request owes the unit one. -/
theorem ofUnit_given_or_older_eq_nil {s : State} {u : UnitName} {k : Nat} {p : Presented}
    {older newer : List Presented} (h : s.singleInstance u k) (hs : s.pending = older ++ p :: newer)
    (hne : ∀ q ∈ older, q.lane ≠ p.lane) :
    ofUnit u (aloneEntry s.params p.req).toList = [] ∨ ofUnit u (entriesAlone s.params older) = [] := by
  by_cases hpu : unitOfOp p.req.op = some u
  · refine .inr (ofUnit_eq_nil_iff.mpr fun e he heu => ?_)
    obtain ⟨q, hq, hqe⟩ := List.mem_filterMap.mp he
    have hqu : unitOfOp q.req.op = some u := heu ▸ aloneEntry_unit hqe
    exact hne q hq (lane_eq_of_singleInstance h (by simp [hs]) (by simp [hs, hq]) hpu hqu)
  · refine .inl (ofUnit_eq_nil_iff.mpr fun e he heu => hpu ?_)
    exact heu ▸ aloneEntry_unit (Option.mem_toList.mp he)

/-- If unit `u` has a single lane in flight in `s`, it has in `t`, and its responses followed by those it
owes are the same list in both. -/
def State.KeepsOrderOf (u : UnitName) (k : Nat) (s t : State) : Prop :=
  s.singleInstance u k → t.singleInstance u k ∧
    ofUnit u t.log ++ ofUnit u t.owed = ofUnit u s.log ++ ofUnit u s.owed

namespace State.KeepsOrderOf

variable {u : UnitName} {k : Nat}

theorem refl (s : State) : s.KeepsOrderOf u k s := fun h => ⟨h, rfl⟩

theorem trans (s t v : State) (hst : s.KeepsOrderOf u k t) (htv : t.KeepsOrderOf u k v) :
    s.KeepsOrderOf u k v := by
  intro h
  obtain ⟨ht, hst⟩ := hst h
  obtain ⟨hv, htv⟩ := htv ht
  exact ⟨hv, htv.trans hst⟩

end State.KeepsOrderOf

theorem step_keepsOrderOf (u : UnitName) (k : Nat) (s t : State) (h : step s = .next t) :
    s.KeepsOrderOf u k t := by
  intro hsingle
  obtain ⟨-, rfl⟩ | ⟨p, older, newer, hs, hne, ht, hparams, hlog, -⟩ := step_takes h
  · exact ⟨hsingle, rfl⟩
  · constructor
    · intro q hq
      refine hsingle q ?_
      rw [ht] at hq
      rw [hs]
      exact (List.sublist_cons_self p newer).append_left older |>.mem hq
    · simp only [owed_eq, hs, ht, hparams, hlog, entriesAlone_append, entriesAlone_cons,
        ofUnit_append]
      obtain hnil | hnil := ofUnit_given_or_older_eq_nil hsingle hs hne <;> simp [hnil]

/-- Settles O39: every step keeps the order of a unit with a single lane in flight, so every run does. -/
theorem unitsAnswerInTheOrderTheyAccept : Obligations.UnitsAnswerInTheOrderTheyAccept := by
  intro n k u s t hsingle h
  obtain ⟨-, horder⟩ := run_rel State.KeepsOrderOf.refl State.KeepsOrderOf.trans
    (step_keepsOrderOf u k) n h hsingle
  exact horder

/-! ## The order between lanes -/

/-- The oldest request of a lane is accepted when it is the lane's turn. -/
theorem accept_of_turn {s : State} {older newer : List Presented} {p : Presented}
    (hs : s.pending = older ++ p :: newer) (hne : ∀ q ∈ older, q.lane ≠ p.lane) (turns : List Lane) :
    State.accept { s with turns := p.lane :: turns } =
      some (p, { s with pending := older ++ newer, turns := turns }) := by
  simp [State.accept, takeNext, hs, takeLane_of_oldest p older newer hne]

/-- Settles O40: the request is taken next when its own lane has the next turn. -/
theorem anyLaneMayAnswerNext : Obligations.AnyLaneMayAnswerNext := by
  intro s older newer p hs hne
  exact ⟨p.lane :: s.turns, step_of_accept_some (accept_of_turn hs hne s.turns)⟩

end Sys2Proof.Machine
end

section
/-! What an operation does to the state is what its verdict says, and a verdict reads its operands and
MAX_PAYLOAD alone (20_memory.md R32, R33). -/

namespace Sys2Proof.Machine

/-- ENCODE alone can be refused. -/
theorem unit_of_verdictOf_refuse {c : Config} {i : Instr} {reason : RefusalReason}
    (h : verdictOf c i = .refuse reason) : i.unit = .packetHeaderEncoder := by
  cases i with
  | encode => rfl
  | decodeHeader => cases h
  | decodeFlags => cases h

/-- Settles O24: the frame of each of the two verdicts. -/
theorem operationsChangeOnlyLogOrMark : Obligations.OperationsChangeOnlyLogOrMark := by
  intro i s t h
  rw [exec_eq_settle, Host.Outcome.next.injEq] at h
  subst h
  cases hv : verdictOf s.params i with
  | respond r => exact ⟨rfl, rfl, rfl, .inl ⟨r, rfl, rfl⟩⟩
  | refuse reason => exact ⟨rfl, rfl, rfl, .inr ⟨unit_of_verdictOf_refuse hv, rfl, rfl⟩⟩

/-- Settles O25: under one MAX_PAYLOAD the two states give the operation one verdict. -/
theorem equalOperandsGetEqualResponses : Obligations.EqualOperandsGetEqualResponses := by
  intro i s₁ s₂ hmax
  simp only [exec_eq_settle, verdictOf_congr hmax]
  cases verdictOf s₂.params i with
  | respond r => exact .inl ⟨r, rfl, rfl⟩
  | refuse reason => exact .inr ⟨rfl, rfl⟩

end Sys2Proof.Machine
end

section
/-! The bytes of a header (20_memory.md R25, R27): each byte of a big-endian field holds eight of its bits,
and ENCODE of in-range fields gives the packet laid out so. -/

namespace Sys2Proof.Machine

/-! ## Big-endian bytes as bits -/

/-- The bytes of a value are those of its high part, then those of its low part. -/
theorem be_add (m n v : Nat) : be (m + n) v = be m (v / 256 ^ n) ++ be n v := by
  induction m with
  | zero => simp [be]
  | succ m ih =>
    have hhead : v / 256 ^ (m + n) = v / 256 ^ n / 256 ^ m := by
      rw [Nat.div_div_eq_div_mul, Nat.pow_add, Nat.mul_comm]
    rw [Nat.add_right_comm]
    simp only [be, bits_byte, ih, hhead, List.cons_append]

theorem ofNat_bits_toNat {w : Nat} (v : BitVec w) (lo : Nat) :
    BitVec.ofNat 8 (bits (lo + 7) lo v.toNat) = v.extractLsb' lo 8 := by
  apply BitVec.eq_of_toNat_eq
  simp [bits, Nat.shiftRight_eq_div_pow]

theorem be_two_toNat {w : Nat} (v : BitVec w) :
    be 2 v.toNat = [v.extractLsb' 8 8, v.extractLsb' 0 8] := by
  simp only [be, ofNat_bits_toNat, Nat.reduceMul]

theorem be_four_toNat {w : Nat} (v : BitVec w) :
    be 4 v.toNat = [v.extractLsb' 24 8, v.extractLsb' 16 8, v.extractLsb' 8 8, v.extractLsb' 0 8] := by
  simp only [be, ofNat_bits_toNat, Nat.reduceMul]

/-- A two-byte read inside the four bytes of a value gives the half of the value that lies there. -/
theorem memRead_be_four_upper {w : Nat} (v : BitVec w) (rest : Bytes) :
    memRead (be 4 v.toNat ++ rest) 0 2 = (v.extractLsb' 16 16).toNat := by
  rw [be_add 2 2, List.append_assoc]
  refine (memRead_append [] _ _ 0 2 rfl (be_length ..)).trans ?_
  simp [beVal_be, Nat.shiftRight_eq_div_pow]

theorem memRead_be_four_lower {w : Nat} (v : BitVec w) (rest : Bytes) :
    memRead (be 4 v.toNat ++ rest) 2 2 = (v.extractLsb' 0 16).toNat := by
  rw [be_add 2 2, List.append_assoc, memRead_append _ _ _ 2 2 (be_length ..) (be_length ..)]
  simp [beVal_be]

/-! ## ENCODE of in-range fields -/

theorem beyondMaxPayload_eq_false_iff {c : Config} {payload : Bytes} :
    beyondMaxPayload c payload = false ↔ ∀ m, c.maxPayload = some m → payload.length ≤ m := by
  unfold beyondMaxPayload
  cases c.maxPayload <;> simp

theorem outOfRange_eq_false_iff {seq ack flags win : Nat} :
    outOfRange seq ack flags win = false ↔
      seq < 2 ^ 32 ∧ ack < 2 ^ 32 ∧ flags < 2 ^ 16 ∧ win < 2 ^ 16 := by
  simp only [outOfRange, Bool.or_eq_false_iff, decide_eq_false_iff_not, Nat.not_le, and_assoc]

/-- An accepted payload with in-range fields gets the packet of R66. -/
theorem exec_encode_of_inRange {seq ack flags win : Nat} {payload : Bytes} {s : State}
    (hpay : ∀ m, s.params.maxPayload = some m → payload.length ≤ m)
    (hseq : seq < 2 ^ 32) (hack : ack < 2 ^ 32) (hflags : flags < 2 ^ 16) (hwin : win < 2 ^ 16) :
    exec (.encode seq ack flags win payload) s = .next (s.respond (.encode seq ack flags win payload)
      ⟨0b00#2, some (.packet
        (be 4 seq ++ (be 4 ack ++ (be 2 flags ++ (be 2 win ++ payload)))))⟩) := by
  have hnot := outOfRange_eq_false_iff.mpr ⟨hseq, hack, hflags, hwin⟩
  rw [exec_eq_settle]
  simp [verdictOf, encodeVerdict, beyondMaxPayload_eq_false_iff.mpr hpay, hnot, encodePacket_eq,
    returnOk]

/-- Settles O7: the packet is its fields' big-endian bytes in order, each byte a slice of its field; the
two 16-bit reads split the bytes of seq in halves. -/
theorem headerBytesHoldTheFieldBits : Obligations.HeaderBytesHoldTheFieldBits := by
  intro seq ack flags win payload s hpay
  refine ⟨_, exec_encode_of_inRange hpay seq.isLt ack.isLt flags.isLt win.isLt, ?_⟩
  rw [memRead_be_four_upper, memRead_be_four_lower]
  rw [be_four_toNat, be_four_toNat, be_two_toNat, be_two_toNat]
  refine ⟨rfl, rfl, rfl, rfl, rfl, rfl, rfl, rfl, rfl, rfl, rfl, rfl, ?_, rfl, rfl⟩
  rintro b ⟨⟩
  simp

end Sys2Proof.Machine
end

section
/-! Requests and their selector (30_encoding.md R53, R58, R59): one equation of `decode` for each of the four
selector values, and `encode` as its inverse on well-formed requests. -/

namespace Sys2Proof.Machine

/-! ## The selector -/

section
variable {r : Req}

theorem decode_of_op_encode (h : r.op = 0b00#2) :
    decode r = .ok (.encode r.encSeq r.encAck r.encFlags r.encWin r.encPay) := by
  simp [decode, h]

theorem decode_of_op_decodeHeader (h : r.op = 0b01#2) : decode r = .ok (.decodeHeader r.decIn) := by
  simp [decode, h]

theorem decode_of_op_decodeFlags (h : r.op = 0b10#2) : decode r = .ok (.decodeFlags r.fxFlags) := by
  simp [decode, h]

theorem decode_of_op_reserved (h : r.op = 0b11#2) : decode r = .error .reservedOp := by
  simp [decode, h]

end

/-- Settles O19: the four equations of `decode`; the table's words are evaluated. -/
theorem selectorChoosesTheOperation : Obligations.SelectorChoosesTheOperation :=
  ⟨fun _ => ⟨decode_of_op_encode, decode_of_op_decodeHeader, decode_of_op_decodeFlags,
    decode_of_op_reserved⟩, rfl, rfl, rfl, rfl⟩

/-- Settles O21: the accepted request is served, and a request that does not decode is served by its
refusal. -/
theorem reservedSelectorIsRefused : Obligations.ReservedSelectorIsRefused := by
  intro s s' p ha hop
  have hd := decode_of_op_reserved hop
  constructor
  · rw [verdictOfReq, hd]
  · rw [step_of_accept_some ha, serve, hd]
    rfl

/-! ## Decoding and encoding -/

@[simp] theorem decode_encode (i : Instr) : decode (encode i) = .ok i := by
  cases i <;> rfl

theorem encode_wf (i : Instr) : (encode i).wf = true := by
  cases i <;> rfl

theorem op_cases (op : BitVec 2) : op = 0b00#2 ∨ op = 0b01#2 ∨ op = 0b10#2 ∨ op = 0b11#2 := by
  revert op
  decide

theorem encIdle_iff {r : Req} : r.encIdle = true ↔
    r.encSeq = 0 ∧ r.encAck = 0 ∧ r.encFlags = 0 ∧ r.encWin = 0 ∧ r.encPay = [] := by
  simp [Req.encIdle, and_assoc]

/-- Settles O20: for each selector that names an operation, well-formed says that the lines of the other
units are idle, so the operands of the operation are all there is of the request. -/
theorem requestDecodeAndEncodeAgree : Obligations.RequestDecodeAndEncodeAgree := by
  refine ⟨fun i => ⟨decode_encode i, encode_wf i⟩, fun r h => ?_⟩
  obtain ⟨op, seq, ack, flags, win, pay, input, fx⟩ := r
  obtain rfl | rfl | rfl | rfl := op_cases op
  · obtain ⟨rfl, rfl⟩ : input = [] ∧ fx = 0#16 := by simpa [Req.wf] using h
    exact ⟨_, decode_of_op_encode rfl, rfl⟩
  · obtain ⟨⟨rfl, rfl, rfl, rfl, rfl⟩, rfl⟩ :
        (seq = 0 ∧ ack = 0 ∧ flags = 0 ∧ win = 0 ∧ pay = []) ∧ fx = 0#16 := by
      simpa [Req.wf, encIdle_iff] using h
    exact ⟨_, decode_of_op_decodeHeader rfl, rfl⟩
  · obtain ⟨⟨rfl, rfl, rfl, rfl, rfl⟩, rfl⟩ :
        (seq = 0 ∧ ack = 0 ∧ flags = 0 ∧ win = 0 ∧ pay = []) ∧ input = [] := by
      simpa [Req.wf, encIdle_iff] using h
    exact ⟨_, decode_of_op_decodeFlags rfl, rfl⟩
  · simp [Req.wf] at h

end Sys2Proof.Machine
end

section
/-! The fields of a header (30_encoding.md R47, R60, R64): what a field's reader finds in a byte sequence and
in a packet ENCODE built, and what DECODE_HEADER and DECODE_FLAGS make of it. -/

namespace Sys2Proof.Machine

/-! ## Reading a field -/

theorem memRead_lt (b : Bytes) (off n : Nat) : memRead b off n < 256 ^ n := by
  have hlen : ((b.drop off).take n).length ≤ n := List.length_take_le ..
  exact (beVal_lt _).trans_le (Nat.pow_le_pow_right (by norm_num) hlen)

/-- A read is a slice of the value of the whole sequence. -/
theorem memRead_eq_div_mod {b : Bytes} {off n : Nat} (h : off + n ≤ b.length) :
    memRead b off n = beVal b / 256 ^ (b.length - (off + n)) % 256 ^ n := by
  obtain ⟨pre, mid, rest, rfl, rfl, rfl⟩ :
      ∃ pre mid rest, b = pre ++ (mid ++ rest) ∧ pre.length = off ∧ mid.length = n := by
    refine ⟨b.take off, (b.drop off).take n, (b.drop off).drop n, by simp, ?_, ?_⟩ <;> simp <;> omega
  have hrest : (pre ++ (mid ++ rest)).length - (pre.length + mid.length) = rest.length := by
    simp only [List.length_append]
    omega
  have hval : beVal (pre ++ (mid ++ rest)) =
      256 ^ rest.length * (256 ^ mid.length * beVal pre + beVal mid) + beVal rest := by
    rw [← List.append_assoc, beVal_append, beVal_append]
    ring
  rw [memRead_append _ _ _ _ _ rfl rfl, hrest, hval, Nat.mul_add_div (Nat.pow_pos (by norm_num)),
    Nat.div_eq_of_lt (beVal_lt rest), Nat.add_zero, Nat.mul_add_mod, Nat.mod_eq_of_lt (beVal_lt mid)]

/-- A read reads no byte behind its own. -/
theorem memRead_take (b : Bytes) {off n m : Nat} (h : off + n ≤ m) :
    memRead (b.take m) off n = memRead b off n := by
  rw [memRead, memRead, List.drop_take, List.take_take, Nat.min_eq_left (by omega)]

theorem beVal_be_of_lt {n v : Nat} (h : v < 256 ^ n) : beVal (be n v) = v := by
  rw [beVal_be, Nat.mod_eq_of_lt h]

section
variable (b : Bytes)

@[simp] theorem readSeq_toNat : (readSeq b).toNat = memRead b 0 4 :=
  Nat.mod_eq_of_lt (memRead_lt b 0 4)

@[simp] theorem readAck_toNat : (readAck b).toNat = memRead b 4 4 :=
  Nat.mod_eq_of_lt (memRead_lt b 4 4)

@[simp] theorem readFlags_toNat : (readFlags b).toNat = memRead b 8 2 :=
  Nat.mod_eq_of_lt (memRead_lt b 8 2)

@[simp] theorem readWin_toNat : (readWin b).toNat = memRead b 10 2 :=
  Nat.mod_eq_of_lt (memRead_lt b 10 2)

end

/-! ## DECODE_HEADER -/

theorem decodeHeaderResponse_of_full {input : Bytes} (h : 12 ≤ input.length) :
    decodeHeaderResponse input =
      ⟨0b00#2, some (.header (readSeq input) (readAck input) (readFlags input) (readWin input))⟩ := by
  simp [decodeHeaderResponse, returnOk, h]

theorem decodeHeaderResponse_of_truncated {input : Bytes} (h : input.length < 12) :
    decodeHeaderResponse input = ⟨0b10#2, none⟩ := by
  simp [decodeHeaderResponse, raise, h]

theorem exec_decodeHeader_of_full {input : Bytes} (h : 12 ≤ input.length) (s : State) :
    exec (.decodeHeader input) s = .next (s.respond (.decodeHeader input)
      ⟨0b00#2, some (.header (readSeq input) (readAck input) (readFlags input) (readWin input))⟩) := by
  rw [exec_eq_settle, verdictOf, decodeHeaderResponse_of_full h, settle_respond]

/-- Settles O8: each field is a read, and so a slice of the header's value. -/
theorem headerIsOne96BitValue : Obligations.HeaderIsOne96BitValue := by
  intro header s h
  refine ⟨_, _, _, _, exec_decodeHeader_of_full h.ge s, ?_⟩
  simp [memRead_eq_div_mod, h, bits]

/-! ## Reserved flag bits -/

theorem encodePacket_length (seq ack flags win : Nat) (payload : Bytes) :
    (encodePacket seq ack flags win payload).length = 12 + payload.length := by
  simp only [encodePacket_eq, List.length_append, be_length]
  omega

/-- ENCODE of in-range fields gives a packet of 12 bytes and the payload, with the flags in bytes 8 and 9. -/
theorem exec_encode_flagBytes {seq ack : BitVec 32} {flags win : BitVec 16} {payload : Bytes}
    {s : State} (hpay : ∀ m, s.params.maxPayload = some m → payload.length ≤ m) :
    ∃ packet, exec (.encode seq.toNat ack.toNat flags.toNat win.toNat payload) s =
        .next (s.respond (.encode seq.toNat ack.toNat flags.toNat win.toNat payload)
          ⟨0b00#2, some (.packet packet)⟩) ∧
      packet.length = 12 + payload.length ∧
      packet[8]? = some (flags.extractLsb' 8 8) ∧ packet[9]? = some (flags.extractLsb' 0 8) := by
  have hlen := encodePacket_length seq.toNat ack.toNat flags.toNat win.toNat payload
  rw [encodePacket_eq] at hlen
  refine ⟨_, exec_encode_of_inRange hpay seq.isLt ack.isLt flags.isLt win.isLt, hlen, ?_⟩
  rw [be_four_toNat, be_four_toNat, be_two_toNat]
  exact ⟨rfl, rfl⟩

theorem readFlags_of_bytes {input : Bytes} {flags : BitVec 16}
    (h8 : input[8]? = some (flags.extractLsb' 8 8)) (h9 : input[9]? = some (flags.extractLsb' 0 8)) :
    readFlags input = flags := by
  obtain ⟨hlt8, h8⟩ := List.getElem?_eq_some_iff.mp h8
  obtain ⟨hlt9, h9⟩ := List.getElem?_eq_some_iff.mp h9
  have hbytes : (input.drop 8).take 2 = be 2 flags.toNat := by
    rw [List.drop_eq_getElem_cons hlt8, List.drop_eq_getElem_cons hlt9, h8, h9, be_two_toNat]
    rfl
  apply BitVec.eq_of_toNat_eq
  rw [readFlags_toNat, memRead, hbytes, beVal_be_of_lt flags.isLt]

/-- Flipping reserved bits changes no flag. -/
theorem flagSet_xor_reserved (flags reserved : BitVec 16) (f : FlagName) :
    flagSet (flags ^^^ (reserved &&& reservedMask)) f = flagSet flags f := by
  cases f <;> simp [flagSet, FlagName.bit, reservedMask]

theorem decodeFlagsResponse_xor_reserved (flags reserved : BitVec 16) :
    decodeFlagsResponse (flags ^^^ (reserved &&& reservedMask)) = decodeFlagsResponse flags := by
  simp only [decodeFlagsResponse, flagSet_xor_reserved]

/-- Settles O9: bytes 8 and 9 are the flags, as written and as read, and no reserved bit is among the
three that DECODE_FLAGS projects. -/
theorem reservedFlagBitsCarriedAndIgnored : Obligations.ReservedFlagBitsCarriedAndIgnored := by
  intro flags s
  refine ⟨fun seq ack win payload hpay => ?_, fun input h8 h9 hlen => ?_, fun reserved => ?_⟩
  · obtain ⟨packet, hexec, -, h8, h9⟩ := exec_encode_flagBytes hpay
    exact ⟨packet, hexec, h8, h9⟩
  · have hexec := exec_decodeHeader_of_full hlen s
    rw [readFlags_of_bytes h8 h9] at hexec
    exact ⟨_, _, _, hexec⟩
  · refine ⟨decodeFlagsResponse flags, rfl, ?_⟩
    rw [← decodeFlagsResponse_xor_reserved flags reserved]
    rfl

/-! ## The fields of a packet ENCODE gave -/

section
variable {seq ack flags win : Nat} (payload : Bytes)

theorem memRead_seq_encodePacket (h : seq < 2 ^ 32) :
    memRead (encodePacket seq ack flags win payload) 0 4 = seq := by
  rw [encodePacket_eq]
  exact (memRead_append [] _ _ 0 4 rfl (be_length ..)).trans (beVal_be_of_lt h)

theorem memRead_ack_encodePacket (h : ack < 2 ^ 32) :
    memRead (encodePacket seq ack flags win payload) 4 4 = ack := by
  rw [encodePacket_eq, memRead_append _ _ _ 4 4 (be_length ..) (be_length ..), beVal_be_of_lt h]

theorem memRead_flags_encodePacket (h : flags < 2 ^ 16) :
    memRead (encodePacket seq ack flags win payload) 8 2 = flags := by
  rw [encodePacket_eq, ← List.append_assoc, memRead_append _ _ _ 8 2 (by simp) (be_length ..),
    beVal_be_of_lt h]

theorem memRead_win_encodePacket (h : win < 2 ^ 16) :
    memRead (encodePacket seq ack flags win payload) 10 2 = win := by
  rw [encodePacket_eq, ← List.append_assoc, ← List.append_assoc,
    memRead_append _ _ _ 10 2 (by simp) (be_length ..), beVal_be_of_lt h]

end

/-- An operation that adds a response to the log has that response as its verdict. -/
theorem verdictOf_of_exec_log {i : Instr} {r : Response} {s t : State} (h : exec i s = .next t)
    (hlog : t.log = s.log ++ [⟨i.unit, i, r⟩]) : verdictOf s.params i = .respond r := by
  rw [exec_eq_settle, Host.Outcome.next.injEq] at h
  subst h
  cases hv : verdictOf s.params i with
  | respond r' => simpa [hv] using hlog
  | refuse reason => simp [hv] at hlog

/-- All that ENCODE can answer. -/
theorem verdictOf_encode_respond {c : Config} {seq ack flags win : Nat} {payload : Bytes} {r : Response}
    (h : verdictOf c (.encode seq ack flags win payload) = .respond r) :
    r = ⟨0b01#2, none⟩ ∨ r = ⟨0b00#2, some (.packet (encodePacket seq ack flags win payload))⟩ := by
  rw [verdictOf, encodeVerdict] at h
  split_ifs at h <;> cases h
  · exact .inl rfl
  · exact .inr rfl

/-- Settles O45: the packet is the one ENCODE builds, in which each field is read back. -/
theorem fieldsOfAnEncodedResultAreTheOperands : Obligations.FieldsOfAnEncodedResultAreTheOperands := by
  intro seq ack flags win payload packet s hseq hack hflags hwin h
  obtain ⟨⟨⟩⟩ | ⟨⟨⟩⟩ := verdictOf_encode_respond (verdictOf_of_exec_log h rfl)
  simp only [fieldOf, readSeq_toNat, readAck_toNat, readFlags_toNat, readWin_toNat,
    memRead_seq_encodePacket payload hseq, memRead_ack_encodePacket payload hack,
    memRead_flags_encodePacket payload hflags, memRead_win_encodePacket payload hwin, and_self]

/-! ## What a response can be -/

/-- All that DECODE_HEADER can answer. -/
theorem decodeHeaderResponse_cases (input : Bytes) :
    decodeHeaderResponse input = ⟨0b10#2, none⟩ ∨ ∃ seq ack flags win,
      decodeHeaderResponse input = ⟨0b00#2, some (.header seq ack flags win)⟩ := by
  obtain h | h := Nat.lt_or_ge input.length 12
  · exact .inl (decodeHeaderResponse_of_truncated h)
  · exact .inr ⟨_, _, _, _, decodeHeaderResponse_of_full h⟩

theorem wfFor_of_verdictOf {c : Config} {i : Instr} {r : Response} (h : verdictOf c i = .respond r) :
    r.wfFor i.unit = true := by
  cases i with
  | encode =>
    obtain rfl | rfl := verdictOf_encode_respond h
    · rfl
    · simp [Response.wfFor, Instr.unit, encodePacket_length]
  | decodeHeader input =>
    cases h
    obtain h | ⟨_, _, _, _, h⟩ := decodeHeaderResponse_cases input <;> rw [h] <;> rfl
  | decodeFlags =>
    cases h
    rfl

/-- A response is OK with a result, or one of the two errors without one (R54). -/
theorem response_cases {c : Config} {i : Instr} {r : Response} (h : verdictOf c i = .respond r) :
    (∃ x, r = ⟨0b00#2, some x⟩) ∨ r = ⟨0b01#2, none⟩ ∨ r = ⟨0b10#2, none⟩ := by
  cases i with
  | encode =>
    obtain h | h := verdictOf_encode_respond h
    · exact .inr (.inl h)
    · exact .inl ⟨_, h⟩
  | decodeHeader input =>
    cases h
    obtain h | ⟨_, _, _, _, h⟩ := decodeHeaderResponse_cases input
    · exact .inr (.inr h)
    · exact .inl ⟨_, h⟩
  | decodeFlags =>
    cases h
    exact .inl ⟨_, rfl⟩

/-- Settles O23: what the verdict answers is well formed for its unit and has one of the three statuses of
R54. -/
theorem responsesNeverHaveStatus3 : Obligations.ResponsesNeverHaveStatus3 := by
  intro i s
  rw [exec_eq_settle]
  cases hv : verdictOf s.params i with
  | refuse reason => exact .inl rfl
  | respond r =>
    refine .inr ⟨r, rfl, wfFor_of_verdictOf hv, ?_⟩
    obtain ⟨x, rfl⟩ | rfl | rfl := response_cases hv <;> simp

end Sys2Proof.Machine
end

section
/-! The units' own ports (30_encoding.md R55): what they show is what the shared port's response shows, for
an encoder of any port widths (40_encoder.md R70, R73) and a decoder given the first 12 bytes. -/

namespace Sys2Proof.Machine

/-- A request that decodes gets its operation's verdict. -/
theorem verdictOfReq_encode (c : Config) (i : Instr) : verdictOfReq c (encode i) = verdictOf c i := by
  rw [verdictOfReq, decode_encode]

/-! ## The verdict on ENCODE -/

section
variable {c : Config} {seq ack flags win : Nat} {payload : Bytes}

theorem verdictOf_encode_of_beyond {m : Nat} (hmax : c.maxPayload = some m) (hm : m < payload.length) :
    verdictOf c (.encode seq ack flags win payload) = .refuse .payloadBeyondMaxPayload := by
  simp [verdictOf, encodeVerdict, beyondMaxPayload, hmax, hm]

theorem verdictOf_encode_of_outOfRange (hpay : ∀ m, c.maxPayload = some m → payload.length ≤ m)
    (h : 2 ^ 32 ≤ seq ∨ 2 ^ 32 ≤ ack ∨ 2 ^ 16 ≤ flags ∨ 2 ^ 16 ≤ win) :
    verdictOf c (.encode seq ack flags win payload) = .respond ⟨0b01#2, none⟩ := by
  have hout : outOfRange seq ack flags win = true := by
    simpa only [outOfRange, Bool.or_eq_true, decide_eq_true_eq, or_assoc] using h
  simp [verdictOf, encodeVerdict, beyondMaxPayload_eq_false_iff.mpr hpay, hout, raise]

theorem verdictOf_encode_of_inRange (hpay : ∀ m, c.maxPayload = some m → payload.length ≤ m)
    (hseq : seq < 2 ^ 32) (hack : ack < 2 ^ 32) (hflags : flags < 2 ^ 16) (hwin : win < 2 ^ 16) :
    verdictOf c (.encode seq ack flags win payload) =
      .respond ⟨0b00#2, some (.packet (encodePacket seq ack flags win payload))⟩ := by
  have hin := outOfRange_eq_false_iff.mpr ⟨hseq, hack, hflags, hwin⟩
  simp [verdictOf, encodeVerdict, beyondMaxPayload_eq_false_iff.mpr hpay, hin, returnOk]

end

/-! ## The encoder's ports -/

section
variable {a b c d : Nat} {cfg : Config} {levels : EncoderOut} {p : EncoderIn a b c d}

/-- Where the payload port holds just the payload, the encoder serves its ports' values. -/
theorem toInstr_of_encLen (h : p.encLen = p.encPay.length) :
    p.toInstr = .encode p.encSeq.toNat p.encAck.toNat p.encFlags.toNat p.encWin.toNat p.encPay := by
  rw [EncoderIn.toInstr, h, List.take_length]

theorem encoderUnit_of_respond {r : Response} (h : verdictOf cfg p.toInstr = .respond r) :
    encoderUnit cfg levels p = some (encoderOut levels r) := by
  rw [encoderUnit, h]

theorem encoderUnit_of_refuse {reason : RefusalReason} (h : verdictOf cfg p.toInstr = .refuse reason) :
    encoderUnit cfg levels p = none := by
  rw [encoderUnit, h]

end

/-! ## The decoder's ports -/

section
variable (b : Bytes)

@[simp] theorem readSeq_take_header : readSeq (b.take headerBytes) = readSeq b := by
  rw [readSeq, memRead_take b (by decide), readSeq]

@[simp] theorem readAck_take_header : readAck (b.take headerBytes) = readAck b := by
  rw [readAck, memRead_take b (by decide), readAck]

@[simp] theorem readFlags_take_header : readFlags (b.take headerBytes) = readFlags b := by
  rw [readFlags, memRead_take b (by decide), readFlags]

@[simp] theorem readWin_take_header : readWin (b.take headerBytes) = readWin b := by
  rw [readWin, memRead_take b (by decide), readWin]

end

/-- The first 12 bytes and the length give the decoder the response of the whole input. -/
theorem decoderPortResponse_ofInput (input : Bytes) :
    decoderPortResponse (.ofInput input) = decodeHeaderResponse input := by
  obtain h | h := Nat.lt_or_ge input.length 12
  · simp [decoderPortResponse, decoderBitResponse, DecoderIn.ofInput, headerBytes, raise, h.not_ge,
      decodeHeaderResponse_of_truncated h]
  · simp [decoderPortResponse, decoderBitResponse, DecoderIn.ofInput, returnOk, h,
      decodeHeaderResponse_of_full h]

theorem decoderUnit_ofInput (levels : DecoderOut) (input : Bytes) :
    decoderUnit levels (.ofInput input) = decoderOut levels (decodeHeaderResponse input) := by
  rw [decoderUnit, decoderPortResponse_ofInput]

/-- Settles O43: each unit shows its own operation's verdict, and the shared port gets the same one. -/
theorem unitPortsShowTheSharedPortsResponse : Obligations.UnitPortsShowTheSharedPortsResponse := by
  simp only [Obligations.UnitPortsShowTheSharedPortsResponse, verdictOfReq_encode]
  refine ⟨fun a b c d cfg levels p hlen => ?_, fun cfg levels input => ?_,
    fun cfg f => ⟨_, _, _, rfl, rfl⟩⟩
  · rw [← toInstr_of_encLen hlen, hlen]
    have hinstr := toInstr_of_encLen hlen
    refine ⟨fun m hmax hm => ?_, fun hpay => ⟨fun hout => ?_, fun hseq hack hflags hwin => ?_⟩⟩
    · have hv := hinstr ▸ verdictOf_encode_of_beyond hmax hm
      exact ⟨hv, encoderUnit_of_refuse hv⟩
    · have hv := hinstr ▸ verdictOf_encode_of_outOfRange hpay hout
      exact ⟨hv, encoderUnit_of_respond hv⟩
    · have hv := hinstr ▸ verdictOf_encode_of_inRange hpay hseq hack hflags hwin
      simp only [List.append_assoc, ← encodePacket_eq]
      refine ⟨hv, ?_⟩
      rw [encoderUnit_of_respond hv, ← encodePacket_length]
      rfl
  · have hunit := decoderUnit_ofInput levels input
    obtain h | ⟨seq, ack, flags, win, h⟩ := decodeHeaderResponse_cases input
    · rw [h] at hunit
      exact .inl ⟨congrArg Verdict.respond h, hunit⟩
    · rw [h] at hunit
      exact .inr ⟨seq, ack, flags, win, congrArg Verdict.respond h, hunit⟩

end Sys2Proof.Machine
end

section
/-! Written requests (30_encoding.md R64, R65): the value of each operand form, and the expansion of the two
pseudo-requests. -/

namespace Sys2Proof.Machine

/-! ## Operands -/

section
variable {responses : List (Option Response)} {k : Nat}

theorem resultNamed_succ {r : Response} (h : responses[k]? = some (some r)) :
    resultNamed responses (k + 1) = r.result := by
  simp [resultNamed, h]

theorem field_value {x : Result} (h : resultNamed responses k = some x) (name : FieldName) :
    (NumForm.field k name).value responses = fieldOf x name := by
  simp [NumForm.value, h]

theorem result_value {packet : Bytes} (h : resultNamed responses k = some (.packet packet)) :
    (BytesForm.result k).value responses = some packet := by
  simp [BytesForm.value, h]

end

theorem testBit_value_iff (f : FlagName) (j : Nat) : f.value.testBit j = true ↔ f.bit = j := by
  simp [FlagName.value, Nat.testBit_two_pow]

/-- Joining flags sets their bits and keeps those already set. -/
theorem testBit_foldl_flags (names : List FlagName) (v j : Nat) :
    (names.foldl (fun v f => v ||| f.value) v).testBit j = true ↔
      v.testBit j = true ∨ ∃ f ∈ names, f.bit = j := by
  induction names generalizing v with
  | nil => simp
  | cons f fs ih => simp [ih, testBit_value_iff, or_assoc]

theorem exists_flag_iff (names : List FlagName) (j : Nat) : (∃ f ∈ names, f.bit = j) ↔
    (j = 1 ∧ FlagName.fin ∈ names) ∨ (j = 2 ∧ FlagName.ack ∈ names) ∨
      (j = 3 ∧ FlagName.syn ∈ names) := by
  constructor
  · rintro ⟨f, hf, rfl⟩
    cases f with
    | fin => exact .inl ⟨rfl, hf⟩
    | ack => exact .inr (.inl ⟨rfl, hf⟩)
    | syn => exact .inr (.inr ⟨rfl, hf⟩)
  · rintro (⟨rfl, hf⟩ | ⟨rfl, hf⟩ | ⟨rfl, hf⟩)
    · exact ⟨.fin, hf, rfl⟩
    · exact ⟨.ack, hf, rfl⟩
    · exact ⟨.syn, hf, rfl⟩

/-- Copies end to end repeat with the period of one copy. -/
theorem getElem?_flatten_replicate {α : Type} (xs : List α) (n i : Nat) (h : i < n * xs.length) :
    (List.replicate n xs).flatten[i]? = xs[i % xs.length]? := by
  induction n generalizing i with
  | zero => simp at h
  | succ n ih =>
    rw [List.replicate_succ, List.flatten_cons]
    obtain hi | hi := Nat.lt_or_ge i xs.length
    · rw [List.getElem?_append_left hi, Nat.mod_eq_of_lt hi]
    · rw [Nat.succ_mul] at h
      rw [List.getElem?_append_right hi, ih _ (by omega), ← Nat.mod_eq_sub_mod hi]

/-- Settles O46: each form's value is its definition's; joined flags have the bits of their names, copies
repeat, and a named result has the fields of its record or of its packet's bytes. -/
theorem writtenOperandsHaveTheirValues : Obligations.WrittenOperandsHaveTheirValues := by
  intro responses
  refine ⟨fun n => ⟨rfl, rfl⟩, fun names => ⟨_, rfl, fun j => ?_⟩, fun _ => rfl,
    fun n bytes => ⟨_, rfl, ?_⟩, fun k status seq ack flags win h => ?_,
    fun k status packet h => ?_⟩
  · rw [testBit_foldl_flags, ← exists_flag_iff]
    simp
  · have hlen : (List.replicate n bytes).flatten.length = n * bytes.length := by simp
    exact ⟨hlen, fun i hi => getElem?_flatten_replicate bytes n i (hlen ▸ hi)⟩
  · have hvalue := field_value (resultNamed_succ h)
    exact ⟨hvalue _, hvalue _, hvalue _, hvalue _⟩
  · have hnamed := resultNamed_succ h
    refine ⟨result_value hnamed, ?_⟩
    simp only [field_value hnamed, fieldOf, readSeq_toNat, readAck_toNat, readFlags_toNat,
      readWin_toNat]
    exact ⟨rfl, rfl, rfl, rfl⟩

/-! ## Pseudo-requests -/

section
variable {responses : List (Option Response)} {seqForm ackForm winForm : NumForm}
  {payloadForm : BytesForm} {seq ack win : Nat} {payload : Bytes}

theorem expand_ackPkt (hseq : seqForm.value responses = some seq)
    (hack : ackForm.value responses = some ack) (hwin : winForm.value responses = some win) :
    (RequestForm.ackPkt seqForm ackForm winForm).expand responses =
      some (.encode seq ack 4 win []) := by
  simp [RequestForm.expand, hseq, hack, hwin, ackPkt]

theorem expand_dataPkt (hseq : seqForm.value responses = some seq)
    (hack : ackForm.value responses = some ack) (hwin : winForm.value responses = some win)
    (hpay : payloadForm.value responses = some payload) :
    (RequestForm.dataPkt seqForm ackForm winForm payloadForm).expand responses =
      some (.encode seq ack 0 win payload) := by
  simp [RequestForm.expand, hseq, hack, hwin, hpay, dataPkt]

end

/-- Settles O44: the expansions take each operand's value, and the shapes are those of any ENCODE of
in-range fields, with the flags 0 and 4. -/
theorem pseudoRequestsExpandToOneEncode : Obligations.PseudoRequestsExpandToOneEncode := by
  refine ⟨fun _ _ _ _ _ _ _ _ _ hseq hack hwin => ⟨expand_ackPkt hseq hack hwin,
    expand_dataPkt hseq hack hwin⟩, fun _ _ _ _ _ => ⟨expand_dataPkt rfl rfl rfl rfl,
    expand_ackPkt rfl rfl rfl⟩, fun seq ack win payload s => ⟨fun hpay hlen => ?_, ?_⟩⟩
  · obtain ⟨packet, hexec, hplen, h8, h9⟩ :=
      exec_encode_flagBytes (seq := seq) (ack := ack) (flags := 0#16) (win := win) hpay
    exact ⟨packet, hexec, by rw [hplen, hlen], h8, h9⟩
  · exact exec_encode_flagBytes (flags := 4#16) (payload := []) (by simp)

end Sys2Proof.Machine
end

section
/-! ENCODE on the shared port and on native-width ports (40_encoder.md R66 to R70, R72, R73): what it does
is what its verdict says, and its packet has its fields at the offsets of R67 and its payload from offset 12. -/

namespace Sys2Proof.Machine

/-! ## From a verdict to what an operation does -/

theorem exec_eq_respond_iff {i : Instr} {r : Response} {s : State} :
    exec i s = .next (s.respond i r) ↔ verdictOf s.params i = .respond r := by
  refine ⟨fun h => verdictOf_of_exec_log h rfl, fun h => ?_⟩
  rw [exec_eq_settle, h, settle_respond]

theorem exec_of_verdictOf_refuse {i : Instr} {reason : RefusalReason} {s : State}
    (h : verdictOf s.params i = .refuse reason) : exec i s = .next (s.refuse reason) := by
  rw [exec_eq_settle, h, settle_refuse]

/-! ## The parts of a packet -/

/-- The bytes of one field, in bytes laid out before it, in it and behind it. -/
theorem take_drop_append {pre mid rest : Bytes} {off n : Nat} (hp : pre.length = off)
    (hm : mid.length = n) : ((pre ++ (mid ++ rest)).drop off).take n = mid := by
  rw [List.drop_left' hp, List.take_left' hm]

section
variable (seq ack flags win : Nat) (payload : Bytes)

theorem seqBytes_encodePacket : (encodePacket seq ack flags win payload).take 4 = be 4 seq := by
  rw [encodePacket_eq, List.take_left' (be_length ..)]

theorem ackBytes_encodePacket :
    ((encodePacket seq ack flags win payload).drop 4).take 4 = be 4 ack := by
  rw [encodePacket_eq, take_drop_append (be_length ..) (be_length ..)]

theorem flagsBytes_encodePacket :
    ((encodePacket seq ack flags win payload).drop 8).take 2 = be 2 flags := by
  rw [encodePacket_eq, ← List.append_assoc, take_drop_append (by simp) (be_length ..)]

theorem winBytes_encodePacket :
    ((encodePacket seq ack flags win payload).drop 10).take 2 = be 2 win := by
  rw [encodePacket_eq, ← List.append_assoc, ← List.append_assoc,
    take_drop_append (by simp) (be_length ..)]

/-- The payload lies behind the header, verbatim. -/
theorem drop_encodePacket : (encodePacket seq ack flags win payload).drop 12 = payload := by
  simp only [encodePacket_eq, ← List.append_assoc]
  exact List.drop_left' (by simp)

end

/-! ## The statements -/

/-- Settles O10: the packet has 12 bytes or more, so DECODE_HEADER reads its four fields, and each is the
operand written there. -/
theorem encodeThenDecodeHeaderRoundTrip : Obligations.EncodeThenDecodeHeaderRoundTrip := by
  intro seq ack flags win payload s s' hseq hack hflags hwin hpay
  have hfull : 12 ≤ (encodePacket seq ack flags win payload).length := by
    rw [encodePacket_length]
    exact Nat.le_add_right ..
  refine ⟨_, _, _, _, _,
    exec_eq_respond_iff.mpr (verdictOf_encode_of_inRange hpay hseq hack hflags hwin),
    exec_decodeHeader_of_full hfull s', ?_, ?_, ?_, ?_, drop_encodePacket ..⟩
  · rw [readSeq_toNat, memRead_seq_encodePacket payload hseq]
  · rw [readAck_toNat, memRead_ack_encodePacket payload hack]
  · rw [readFlags_toNat, memRead_flags_encodePacket payload hflags]
  · rw [readWin_toNat, memRead_win_encodePacket payload hwin]

/-- Settles O1: the three verdicts on ENCODE, each as what it does to the state. -/
theorem encodeFollowsItsRule : Obligations.EncodeFollowsItsRule := by
  intro seq ack flags win payload s
  refine ⟨decode_encode _, rfl, fun m hmax hm => ?_, fun hpay => ⟨fun hout => ?_, ?_⟩⟩
  · exact exec_of_verdictOf_refuse (verdictOf_encode_of_beyond hmax hm)
  · exact exec_eq_respond_iff.mpr (verdictOf_encode_of_outOfRange hpay hout)
  · intro hseq hack hflags hwin
    simp only [List.append_assoc]
    exact exec_encode_of_inRange hpay hseq hack hflags hwin

/-- Settles O2: each slice of the packet is its own field's bytes. -/
theorem encodeFieldOrderOffsetsAndWidths : Obligations.EncodeFieldOrderOffsetsAndWidths := by
  intro seq ack flags win payload s hseq hack hflags hwin hpay
  exact ⟨_, exec_eq_respond_iff.mpr (verdictOf_encode_of_inRange hpay hseq hack hflags hwin),
    seqBytes_encodePacket .., ackBytes_encodePacket .., flagsBytes_encodePacket ..,
    winBytes_encodePacket ..⟩

/-- Settles O3: a response with a packet is the one of the packet ENCODE builds. -/
theorem encodePacketLength : Obligations.EncodePacketLength := by
  intro seq ack flags win payload packet s t h hlog
  obtain ⟨⟨⟩⟩ | ⟨⟨⟩⟩ := verdictOf_encode_respond (verdictOf_of_exec_log h hlog)
  exact encodePacket_length ..

/-- Settles O4: a payload within MAX_PAYLOAD stands behind the packet's header; one past it is refused. -/
theorem encodeCopiesPayloadOfAnyLength : Obligations.EncodeCopiesPayloadOfAnyLength := by
  intro seq ack flags win payload s hseq hack hflags hwin
  refine ⟨fun hmax => ?_, fun ⟨m, hmax, hm⟩ => ?_⟩
  · have hpay : ∀ m, s.params.maxPayload = some m → payload.length ≤ m := by
      obtain hnone | ⟨n, hsome, hn⟩ := hmax
      · simp [hnone]
      · simpa [hsome] using hn
    exact ⟨_, exec_eq_respond_iff.mpr (verdictOf_encode_of_inRange hpay hseq hack hflags hwin),
      drop_encodePacket ..⟩
  · exact exec_of_verdictOf_refuse (verdictOf_encode_of_beyond hmax hm)

/-- Settles O5: past a width the verdict is OutOfRange and within all four it is a packet, so neither
response occurs in the other case. -/
theorem outOfRangeExactlyPastWidths : Obligations.OutOfRangeExactlyPastWidths := by
  intro seq ack flags win payload s hpay
  by_cases hout : 2 ^ 32 ≤ seq ∨ 2 ^ 32 ≤ ack ∨ 2 ^ 16 ≤ flags ∨ 2 ^ 16 ≤ win
  · have hv := verdictOf_encode_of_outOfRange hpay hout
    refine ⟨iff_of_true (exec_eq_respond_iff.mpr hv) hout, iff_of_false ?_ (not_not_intro hout)⟩
    rintro ⟨packet, hexec⟩
    cases hv.symm.trans (exec_eq_respond_iff.mp hexec)
  · obtain ⟨hseq, hack, hflags, hwin⟩ :
        seq < 2 ^ 32 ∧ ack < 2 ^ 32 ∧ flags < 2 ^ 16 ∧ win < 2 ^ 16 := by
      simpa only [not_or, Nat.not_le] using hout
    have hv := verdictOf_encode_of_inRange hpay hseq hack hflags hwin
    refine ⟨iff_of_false (fun hexec => ?_) hout, iff_of_true ⟨_, exec_eq_respond_iff.mpr hv⟩ hout⟩
    cases hv.symm.trans (exec_eq_respond_iff.mp hexec)

/-- Settles O41: the ports' values are in range by their types, so the verdict is the packet, which the
output ports show. -/
theorem nativeEncoderPortsNeverGiveOutOfRange : Obligations.NativeEncoderPortsNeverGiveOutOfRange := by
  intro cfg levels p hlen hpay
  have hinstr := toInstr_of_encLen hlen
  have hv := hinstr ▸ verdictOf_encode_of_inRange (hlen ▸ hpay) p.encSeq.isLt p.encAck.isLt
    p.encFlags.isLt p.encWin.isLt
  refine ⟨?_, _, encoderUnit_of_respond hv, rfl, ?_, ?_⟩
  · rw [hinstr]
    simp [Instr.fitsNativePorts, p.encSeq.isLt, p.encAck.isLt, p.encFlags.isLt, p.encWin.isLt]
  · simp only [encoderOut, encodePacket_eq, List.append_assoc]
  · rw [hlen]
    exact encodePacket_length ..

end Sys2Proof.Machine
end

section
/-! DECODE_HEADER (41_decoder.md R74 to R78, R80): it reads the first 12 bytes alone, succeeds on 12 bytes or
more and on no fewer, and its fields with the payload behind them give back the packet they were read from. -/

namespace Sys2Proof.Machine

/-! ## What DECODE_HEADER answers -/

theorem exec_decodeHeader_eq_iff {input : Bytes} {r : Response} {s : State} :
    exec (.decodeHeader input) s = .next (s.respond (.decodeHeader input) r) ↔
      decodeHeaderResponse input = r := by
  rw [exec_eq_respond_iff, verdictOf, Verdict.respond.injEq]

theorem decodeHeaderResponse_eq_truncated_iff {input : Bytes} :
    decodeHeaderResponse input = ⟨0b10#2, none⟩ ↔ input.length < 12 := by
  refine ⟨fun hr => ?_, decodeHeaderResponse_of_truncated⟩
  by_contra h
  cases hr.symm.trans (decodeHeaderResponse_of_full (Nat.not_lt.mp h))

theorem exists_decodeHeaderResponse_eq_header_iff {input : Bytes} :
    (∃ seq ack flags win, decodeHeaderResponse input = ⟨0b00#2, some (.header seq ack flags win)⟩) ↔
      12 ≤ input.length := by
  refine ⟨fun ⟨_, _, _, _, hr⟩ => ?_, fun h => ⟨_, _, _, _, decodeHeaderResponse_of_full h⟩⟩
  by_contra h
  cases hr.symm.trans (decodeHeaderResponse_of_truncated (Nat.not_le.mp h))

/-- The first 12 bytes of an input, or all of a shorter one, get the response of the whole. -/
theorem decodeHeaderResponse_take_header (input : Bytes) :
    decodeHeaderResponse (input.take headerBytes) = decodeHeaderResponse input := by
  obtain h | h := Nat.lt_or_ge input.length 12
  · rw [List.take_of_length_le h.le]
  · have htake : 12 ≤ (input.take headerBytes).length := by simp [h]
    rw [decodeHeaderResponse_of_full htake, decodeHeaderResponse_of_full h, readSeq_take_header,
      readAck_take_header, readFlags_take_header, readWin_take_header]

/-! ## The packet of the fields read -/

/-- The bytes of a value read are the bytes it was read from. -/
theorem be_memRead {b : Bytes} {off n : Nat} (h : off + n ≤ b.length) :
    be n (memRead b off n) = (b.drop off).take n := by
  have hlen : ((b.drop off).take n).length = n := by
    rw [List.length_take, List.length_drop]
    omega
  have hbytes := be_beVal ((b.drop off).take n)
  rw [hlen] at hbytes
  exact hbytes

/-- Encoding a packet's fields and payload gives the packet back. -/
theorem encodePacket_read {b : Bytes} (h : 12 ≤ b.length) :
    encodePacket (readSeq b).toNat (readAck b).toNat (readFlags b).toNat (readWin b).toNat
      (payloadOf b) = b := by
  have hseq := be_memRead (b := b) (off := 0) (n := 4) (by omega)
  have hack := be_memRead (b := b) (off := 4) (n := 4) (by omega)
  have hflags := be_memRead (b := b) (off := 8) (n := 2) (by omega)
  have hwin := be_memRead (b := b) (off := 10) (n := 2) (by omega)
  have hjoin (off n : Nat) : (b.drop off).take n ++ b.drop (off + n) = b.drop off := by
    rw [← List.drop_drop, List.take_append_drop]
  rw [encodePacket_eq, readSeq_toNat, readAck_toNat, readFlags_toNat, readWin_toNat, hseq, hack, hflags,
    hwin, payloadOf, hjoin 10 2, hjoin 8 2, hjoin 4 4, hjoin 0 4, List.drop_zero]

/-! ## The statements -/

/-- Settles O11: one way is the round trip of R72; the other is that the fields of 12 bytes, with no
payload behind them, encode to those bytes. -/
theorem headersAndFieldsCorrespondOneToOne : Obligations.HeadersAndFieldsCorrespondOneToOne := by
  refine ⟨fun seq ack flags win payload s hpay => ?_, fun header s hlen => ?_⟩
  · obtain ⟨packet, _, _, _, _, hencode, hdecode, hseq, hack, hflags, hwin, -⟩ :=
      encodeThenDecodeHeaderRoundTrip _ _ _ _ payload s s seq.isLt ack.isLt flags.isLt win.isLt hpay
    obtain rfl := BitVec.eq_of_toNat_eq hseq
    obtain rfl := BitVec.eq_of_toNat_eq hack
    obtain rfl := BitVec.eq_of_toNat_eq hflags
    obtain rfl := BitVec.eq_of_toNat_eq hwin
    exact ⟨packet, hencode, hdecode⟩
  · have hnil : payloadOf header = [] := List.drop_of_length_le hlen.le
    have hpacket := encodePacket_read hlen.ge
    have hv := verdictOf_encode_of_inRange (c := s.params) (payload := []) (fun _ _ => Nat.zero_le _)
      (readSeq header).isLt (readAck header).isLt (readFlags header).isLt (readWin header).isLt
    rw [hnil] at hpacket
    rw [hpacket] at hv
    exact ⟨_, _, _, _, exec_decodeHeader_of_full hlen.ge s, exec_eq_respond_iff.mpr hv⟩

/-- Settles O12: an input is truncated or has 12 bytes, of which each field is the value of its own. -/
theorem decodeHeaderFollowsItsRule : Obligations.DecodeHeaderFollowsItsRule := by
  intro input s
  refine ⟨decode_encode _, rfl, fun h => ?_, fun h => ?_⟩
  · exact exec_decodeHeader_eq_iff.mpr (decodeHeaderResponse_of_truncated h)
  · exact ⟨_, _, _, _, exec_decodeHeader_of_full h s, readSeq_toNat _, readAck_toNat _,
      readFlags_toNat _, readWin_toNat _⟩

/-- Settles O13: the header is the first 12 bytes of the longer input. -/
theorem decodeHeaderIgnoresBytesFromOffset12 : Obligations.DecodeHeaderIgnoresBytesFromOffset12 := by
  intro header tail s hlen
  have hprefix := decodeHeaderResponse_take_header (header ++ tail)
  rw [List.take_left' hlen] at hprefix
  exact ⟨_, exec_decodeHeader_eq_iff.mpr rfl, exec_decodeHeader_eq_iff.mpr hprefix.symm⟩

/-- Settles O14: what is logged is the response, which is an error below 12 bytes and else a header. -/
theorem truncatedInputExactlyBelow12Bytes : Obligations.TruncatedInputExactlyBelow12Bytes := by
  intro input s
  exact ⟨exec_decodeHeader_eq_iff.trans decodeHeaderResponse_eq_truncated_iff,
    (exists₄_congr fun _ _ _ _ => exec_decodeHeader_eq_iff).trans
      exists_decodeHeaderResponse_eq_header_iff⟩

/-- Settles O42: given N, the decoder compares it with 12, and that is the single bit, so both forms of the
ports give the response of the whole input. -/
theorem decoderPortsGiveTheFullResponse : Obligations.DecoderPortsGiveTheFullResponse := by
  intro input s
  have hbit : decoderBitResponse (.ofInput input) = decoderPortResponse (.ofInput input) := rfl
  exact ⟨_, exec_decodeHeader_eq_iff.mpr rfl, decoderPortResponse_ofInput input,
    hbit.trans (decoderPortResponse_ofInput input)⟩

end Sys2Proof.Machine
end

section
/-! DECODE_FLAGS (42_flag_extractor.md R81 to R84): it projects the three defined bits, each on its own, and
the reserved bits do not reach the result. -/

namespace Sys2Proof.Machine

/-! ## What DECODE_FLAGS answers -/

theorem exec_decodeFlags_eq_iff {f : BitVec 16} {r : Response} {s : State} :
    exec (.decodeFlags f) s = .next (s.respond (.decodeFlags f) r) ↔ decodeFlagsResponse f = r := by
  rw [exec_eq_respond_iff, verdictOf, Verdict.respond.injEq]

theorem decodeFlagsResponse_eq_booleans (f : BitVec 16) :
    decodeFlagsResponse f =
      ⟨0b00#2, some (.booleans (f.getLsbD 3) (f.getLsbD 2) (f.getLsbD 1))⟩ := rfl

/-- Masking to the defined bits changes no flag. -/
theorem flagSet_and_definedMask (f : BitVec 16) (name : FlagName) :
    flagSet (f &&& definedMask) name = flagSet f name := by
  cases name <;> simp [flagSet, FlagName.bit, definedMask]

theorem decodeFlagsResponse_and_definedMask (f : BitVec 16) :
    decodeFlagsResponse (f &&& definedMask) = decodeFlagsResponse f := by
  simp only [decodeFlagsResponse, flagSet_and_definedMask]

/-! ## The value of three booleans -/

/-- The flags value with the given defined bits and no reserved bit (R88). -/
def flagBits (syn ack fin : Bool) : BitVec 16 :=
  (if syn then 8#16 else 0#16) + (if ack then 4#16 else 0#16) + (if fin then 2#16 else 0#16)

theorem flagBits_and_definedMask :
    ∀ syn ack fin, flagBits syn ack fin &&& definedMask = flagBits syn ack fin := by decide

theorem flagBits_and_reservedMask :
    ∀ syn ack fin, flagBits syn ack fin &&& reservedMask = 0#16 := by decide

theorem decodeFlagsResponse_flagBits : ∀ syn ack fin,
    decodeFlagsResponse (flagBits syn ack fin) = ⟨0b00#2, some (.booleans syn ack fin)⟩ := by decide

/-- The flags value with the given defined bits and the reserved bits of `other`. -/
def withReserved (other : BitVec 16) (syn ack fin : Bool) : BitVec 16 :=
  other &&& reservedMask ||| flagBits syn ack fin

section
variable (other : BitVec 16) (syn ack fin : Bool)

theorem withReserved_and_reservedMask :
    withReserved other syn ack fin &&& reservedMask = other &&& reservedMask := by
  rw [withReserved, BitVec.and_or_distrib_right, flagBits_and_reservedMask, BitVec.or_zero,
    BitVec.and_assoc, BitVec.and_self]

theorem withReserved_and_definedMask :
    withReserved other syn ack fin &&& definedMask = flagBits syn ack fin := by
  have hdisjoint : reservedMask &&& definedMask = 0#16 := by decide
  rw [withReserved, BitVec.and_or_distrib_right, flagBits_and_definedMask, BitVec.and_assoc, hdisjoint,
    BitVec.and_zero, BitVec.zero_or]

end

/-! ## The statements -/

/-- Settles O16: with the defined bits of the three booleans beside any reserved bits, the response is that
of the defined bits alone, which are the booleans. -/
theorem flagsAreIndependent : Obligations.FlagsAreIndependent := by
  intro syn ack fin other s
  refine ⟨withReserved other syn ack fin, withReserved_and_reservedMask ..,
    withReserved_and_definedMask .., exec_decodeFlags_eq_iff.mpr ?_⟩
  rw [← decodeFlagsResponse_and_definedMask, withReserved_and_definedMask, decodeFlagsResponse_flagBits]

/-- Settles O15: the selector is that of the operation, and each boolean is the projection of its bit. -/
theorem decodeFlagsFollowsItsRule : Obligations.DecodeFlagsFollowsItsRule := by
  intro f s
  exact ⟨decode_encode _, rfl, exec_decodeFlags_eq_iff.mpr (decodeFlagsResponse_eq_booleans f)⟩

/-- Settles O17: 0 is the value of three false booleans. -/
theorem flagsOfZeroAreAllFalse : Obligations.FlagsOfZeroAreAllFalse := by
  intro s
  exact exec_decodeFlags_eq_iff.mpr (decodeFlagsResponse_flagBits false false false)

/-- Settles O18: masking to the defined bits changes no flag, and so not the response. -/
theorem decodeFlagsReadsOnlyDefinedBits : Obligations.DecodeFlagsReadsOnlyDefinedBits := by
  intro f s
  exact ⟨_, exec_decodeFlags_eq_iff.mpr rfl,
    exec_decodeFlags_eq_iff.mpr (decodeFlagsResponse_and_definedMask f)⟩

end Sys2Proof.Machine
end

section
/-! Refusals and errors (60_exceptions.md R93, R97, R98): a request is refused in exactly two cases and else
answered, an error leaves behind nothing that a later verdict reads, and no step stops the block. -/

namespace Sys2Proof.Machine

/-! ## Refused or answered -/

section
variable {r : Req} {i : Instr} {s : State}

theorem verdictOfReq_of_decode (c : Config) (h : decode r = .ok i) :
    verdictOfReq c r = verdictOf c i := by
  rw [verdictOfReq, h]

/-- A refused request sets the mark and does nothing else, whether or not it names an operation. -/
theorem serve_of_verdictOfReq_refuse {reason : RefusalReason}
    (h : verdictOfReq s.params r = .refuse reason) : serve r s = .next (s.refuse reason) := by
  cases hd : decode r with
  | error reason' =>
    rw [serve, hd]
    rfl
  | ok i =>
    rw [serve_of_decode hd]
    exact exec_of_verdictOf_refuse (verdictOfReq_of_decode s.params hd ▸ h)

/-- ENCODE with a payload within MAX_PAYLOAD gets a response, whatever its other operands (R69, R70). -/
theorem exists_verdictOf_encode_respond {c : Config} {payload : Bytes} (seq ack flags win : Nat)
    (hpay : ∀ m, c.maxPayload = some m → payload.length ≤ m) :
    ∃ rsp, verdictOf c (.encode seq ack flags win payload) = .respond rsp := by
  by_cases hout : 2 ^ 32 ≤ seq ∨ 2 ^ 32 ≤ ack ∨ 2 ^ 16 ≤ flags ∨ 2 ^ 16 ≤ win
  · exact ⟨_, verdictOf_encode_of_outOfRange hpay hout⟩
  · simp only [not_or, Nat.not_le] at hout
    obtain ⟨hseq, hack, hflags, hwin⟩ := hout
    exact ⟨_, verdictOf_encode_of_inRange hpay hseq hack hflags hwin⟩

/-- Outside the two cases of R93 a request names an operation, and the operation gets a response. -/
theorem exists_decode_respond {c : Config} (hop : r.op ≠ 0b11#2)
    (hpay : r.op = 0b00#2 → ∀ m, c.maxPayload = some m → r.encPay.length ≤ m) :
    ∃ i rsp, decode r = .ok i ∧ verdictOf c i = .respond rsp := by
  obtain h | h | h | h := op_cases r.op
  · obtain ⟨rsp, hv⟩ :=
      exists_verdictOf_encode_respond r.encSeq r.encAck r.encFlags r.encWin (hpay h)
    exact ⟨_, rsp, decode_of_op_encode h, hv⟩
  · exact ⟨_, _, decode_of_op_decodeHeader h, rfl⟩
  · exact ⟨_, _, decode_of_op_decodeFlags h, rfl⟩
  · exact absurd h hop

end

/-- Settles O22: the reserved selector does not decode, a payload past MAX_PAYLOAD gets a refusal from
ENCODE, and any other request decodes to an operation that is answered. -/
theorem refusalsAreExactlyTheTwoCases : Obligations.RefusalsAreExactlyTheTwoCases := by
  intro r s
  refine ⟨fun hop => ?_, fun m hop hmax hm => ?_, fun hop hpay => ?_⟩
  · have hv : verdictOfReq s.params r = .refuse .reservedOp := by
      rw [verdictOfReq, decode_of_op_reserved hop]
    exact ⟨hv, serve_of_verdictOfReq_refuse hv⟩
  · have hv : verdictOfReq s.params r = .refuse .payloadBeyondMaxPayload :=
      (verdictOfReq_of_decode s.params (decode_of_op_encode hop)).trans
        (verdictOf_encode_of_beyond hmax hm)
    exact ⟨hv, serve_of_verdictOfReq_refuse hv⟩
  · obtain ⟨i, rsp, hd, hv⟩ := exists_decode_respond hop hpay
    exact ⟨i.unit, i, rsp, hd, decode_unit hd, (verdictOfReq_of_decode s.params hd).trans hv,
      (serve_of_decode hd).trans (exec_eq_respond_iff.mpr hv)⟩

/-! ## After an error, and after any step -/

/-- Settles O26: an operation leaves the parameters, so after it the operation itself has the verdict it had
before, and any other one has too. -/
theorem errorsChangeNoLaterResponse : Obligations.ErrorsChangeNoLaterResponse := by
  intro i j s t status h hlog
  obtain ⟨-, -, hparams, -⟩ := operationsChangeOnlyLogOrMark i s t h
  have hretry : verdictOf t.params i = .respond ⟨status, none⟩ :=
    hparams ▸ verdictOf_of_exec_log h hlog
  exact ⟨exec_eq_respond_iff.mpr hretry,
    equalOperandsGetEqualResponses j s t (congrArg Config.maxPayload hparams.symm)⟩

/-- Settles O30: every step answers, and takes a request where one is in flight. -/
theorem noConditionIsFatal : Obligations.NoConditionIsFatal := by
  intro s
  obtain ⟨t, ht⟩ := step_next s
  exact ⟨t, ht, step_pending_length ht⟩

end Sys2Proof.Machine
end

section
/-! The host's reset (70_reset_and_hazards.md R107): it leaves no request in flight and no turn, so the next
request presented is the next one taken, and a run has nothing else to serve. -/

namespace Sys2Proof.Machine

section
variable (s : State) (p : Presented)

@[simp] theorem hostReset_pending : s.hostReset.pending = [] := rfl
@[simp] theorem hostReset_log : s.hostReset.log = [] := rfl
@[simp] theorem hostReset_refused : s.hostReset.refused = false := rfl
@[simp] theorem hostReset_params : s.hostReset.params = s.params := rfl

/-- After reset the request presented is taken, and what remains is the reset state. -/
theorem accept_present_hostReset : (s.hostReset.present p).accept = some (p, s.hostReset) := rfl

end

/-- A run with no request in flight ends where it began. -/
theorem run_eq_self_of_pending_nil {n : Nat} {s t : State} (hs : s.pending = [])
    (h : Sys2Proof.core.run n s = .next t) : t = s := by
  refine run_rel (R := fun s t => s.pending = [] → t = s) (fun _ _ => rfl) ?_ ?_ n h hs
  · intro s t u hst htu hs
    obtain rfl := hst hs
    exact htu hs
  · intro s t hstep hs
    rw [step_of_accept_none (accept_none.mpr hs), Host.Outcome.next.injEq] at hstep
    exact hstep.symm

/-- Serving a request adds to what the run shows the entry the request gets alone, or the mark. -/
theorem serve_shows {r : Req} {s t : State} (h : serve r s = .next t) :
    t.pending = s.pending ∧
    t.shows = (s.log ++ (aloneEntry s.params r).toList, s.refused || (aloneEntry s.params r).isNone) := by
  rw [serve_eq, Host.Outcome.next.injEq] at h
  subst h
  cases aloneEntry s.params r with
  | some e => simp [State.shows]
  | none => simp [State.shows]

/-- Settles O32: with nothing in flight a run shows what it began with, the empty record of the reset; a
request presented after the reset is served by the first step, and then nothing is in flight again. -/
theorem resetDiscardsRequestsInFlight : Obligations.ResetDiscardsRequestsInFlight := by
  intro s t n p
  constructor <;> intro h
  · obtain rfl := run_eq_self_of_pending_nil (hostReset_pending s) h
    rfl
  · obtain ⟨s', hs⟩ := step_next (s.hostReset.present p)
    rw [run_succ (M := Sys2Proof.core) (s := s.hostReset.present p) hs] at h
    rw [step_of_accept_some (accept_present_hostReset s p)] at hs
    obtain ⟨hidle, hshows⟩ := serve_shows hs
    obtain rfl := run_eq_self_of_pending_nil hidle h
    simpa using hshows

end Sys2Proof.Machine
end

section
/-! What the next step does: with nothing in flight it does nothing, a request presented to be next is the
one it takes, and a payload past MAX_PAYLOAD is refused whatever the other operands are (60_exceptions.md
R95). -/

namespace Sys2Proof.Machine

/-- A request presented to be next is accepted, and what remains is the state it was placed in. -/
theorem accept_presentNext (s : State) (p : Presented) : (s.presentNext p).accept = some (p, s) :=
  accept_of_turn (s := { s with pending := p :: s.pending }) (older := []) rfl
    (List.forall_mem_nil _) s.turns

/-- Settles O6: the verdict on a payload past MAX_PAYLOAD is the refusal whatever the other operands are, so
whether one of them is out of range is not asked. -/
theorem refusalComesBeforeOutOfRange : Obligations.RefusalComesBeforeOutOfRange := by
  intro seq ack flags win m payload s hmax hm _
  exact exec_of_verdictOf_refuse (verdictOf_encode_of_beyond hmax hm)

/-- Settles O28: with nothing in flight there is no request to accept. -/
theorem idleStepChangesNothing : Obligations.IdleStepChangesNothing := by
  intro s hs
  exact step_of_accept_none (accept_none.mpr hs)

/-- Settles O29: a table word's request is presented to be next, so the step accepts it in `s`. -/
theorem tableWordRunsNext : Obligations.TableWordRunsNext := by
  intro s nbits w
  exact step_of_accept_some (accept_presentNext s ⟨0, reqOfTableWord nbits w⟩)

end Sys2Proof.Machine
end
